-- ==== Sys2Proof/Word.lean ====
section
/-! DEFINITION. The widths the spec fixes: bytes, instruction words, register numbers, and the two register files as vectors of bit vectors whose width is a parameter. -/

namespace Sys2Proof

/-- One byte of instruction memory (20_memory.md R40). -/
abbrev Byte := BitVec 8

/-- One instruction word, `insn[31:0]` (30_encoding.md R50). -/
abbrev Insn := BitVec 32

/-- A 5-bit register field (30_encoding.md R51, R53; 44_context_vset.md R110). -/
abbrev RegNum := BitVec 5

/-- The vector registers `v0` to `v31`, each `VLEN` bits (10_state.md R20). -/
abbrev VRegs (vlen : Nat) := Vector (BitVec vlen) 32

/-- The integer registers `x0` to `x31`, each `XLEN` bits (10_state.md R30). -/
abbrev XRegs (xlen : Nat) := Vector (BitVec xlen) 32

end Sys2Proof
end

