-- ==== Sys2Proof/Syntax.lean ====
section
/-! DEFINITION. The instructions: one constructor per row of spec/opcode_table.json, operands in the assembler's order (30_encoding.md R65, 44_context_vset.md R110). -/

namespace Sys2Proof

/-- An instruction of the spec. `vm = true` is the unmasked form, `insn[25] = 1` (30_encoding.md R53). -/
inductive Instr where
  /-- `vzip.vv vd, vs2, vs1, vm` (R54, R90). -/
  | vzipVV (vd vs2 vs1 : RegNum) (vm : Bool)
  /-- `vunzipe.v vd, vs2, vm` (R55, R95). -/
  | vunzipeV (vd vs2 : RegNum) (vm : Bool)
  /-- `vunzipo.v vd, vs2, vm` (R56, R96). -/
  | vunzipoV (vd vs2 : RegNum) (vm : Bool)
  /-- `vpaire.vv vd, vs2, vs1, vm` (R57, R100). -/
  | vpaireVV (vd vs2 vs1 : RegNum) (vm : Bool)
  /-- `vpairo.vv vd, vs2, vs1, vm` (R58, R101). -/
  | vpairoVV (vd vs2 vs1 : RegNum) (vm : Bool)
  /-- `vsetvli rd, rs1, vtypei` (R110). -/
  | vsetvli (rd rs1 : RegNum) (vtypei : BitVec 11)
  /-- `vsetivli rd, uimm, vtypei` (R110). The `vtypei` operand has the type it has in `vsetvli`; the
  encoding holds its low 10 bits only, which `WellFormed` checks. -/
  | vsetivli (rd : RegNum) (uimm : BitVec 5) (vtypei : BitVec 11)
  /-- `vsetvl rd, rs1, rs2` (R110). -/
  | vsetvl (rd rs1 rs2 : RegNum)
  deriving DecidableEq, Repr

end Sys2Proof
end

