-- ==== Sys2Proof/WellFormed.lean ====
section
/-! DEFINITION. Which instruction terms have an encoding. The operand types already bound every register number, `vm` and `uimm`; what is left to check is the one immediate that `vsetvli` and `vsetivli` share. -/

namespace Sys2Proof

/-- The term has an encoding: `vsetivli` encodes `zimm[9:0]` only, so bit 10 of its `vtypei` must be 0
(44_context_vset.md R110). Every other operand is bounded by its type (30_encoding.md R53). -/
def Instr.wellFormed : Instr → Bool
  | .vzipVV _ _ _ _ => true
  | .vunzipeV _ _ _ => true
  | .vunzipoV _ _ _ => true
  | .vpaireVV _ _ _ _ => true
  | .vpairoVV _ _ _ _ => true
  | .vsetvli _ _ _ => true
  | .vsetivli _ _ vtypei => !vtypei.getLsbD 10
  | .vsetvl _ _ _ => true

/-- `wellFormed` as a proposition. -/
abbrev WellFormed (i : Instr) : Prop := i.wellFormed = true

end Sys2Proof
end

