-- ==== Sys2Proof/Decode.lean ====
section
/-! DEFINITION. The decoder, from the (match, mask) pairs of 30_encoding.md R54 to R58 and 44_context_vset.md R110, and after it the encoder, from the field patterns of the same rules. -/

namespace Sys2Proof

/-! ### Fields of an instruction word (R51, R53, R110) -/

/-- `insn[11:7]`: `vd`, or `rd` of a `vset*`. -/
def fieldVd (w : Insn) : RegNum := w.extractLsb' 7 5

/-- `insn[19:15]`: `vs1`, or `rs1` or `uimm` of a `vset*`. -/
def fieldVs1 (w : Insn) : RegNum := w.extractLsb' 15 5

/-- `insn[24:20]`: `vs2`, or `rs2` of `vsetvl`. -/
def fieldVs2 (w : Insn) : RegNum := w.extractLsb' 20 5

/-- `insn[25]`: `vm`. -/
def fieldVm (w : Insn) : Bool := w.getLsbD 25

/-- `insn[30:20]`: `zimm[10:0]` of `vsetvli`. -/
def fieldZimm11 (w : Insn) : BitVec 11 := w.extractLsb' 20 11

/-- `insn[29:20]`: `zimm[9:0]` of `vsetivli`, as an 11-bit value whose bit 10 is 0. -/
def fieldZimm10 (w : Insn) : BitVec 11 := (w.extractLsb' 20 10).setWidth 11

/-! ### The opcode table -/

/-- The names of the opcode table's rows. -/
inductive Op where
  | vzip
  | vunzipe
  | vunzipo
  | vpaire
  | vpairo
  | vsetvli
  | vsetivli
  | vsetvl
  deriving DecidableEq, Repr

/-- A row of the opcode table: the word `w` is the instruction iff `w &&& mask = pattern`
(30_encoding.md section 3). -/
structure OpRow where
  op : Op
  pattern : Insn
  mask : Insn
  deriving DecidableEq, Repr

/-- The rows of R54 to R58 and R110. -/
def opcodeTable : List OpRow :=
  [ ⟨.vzip, 0xF8002057, 0xFC00707F⟩,
    ⟨.vunzipe, 0x4805A057, 0xFC0FF07F⟩,
    ⟨.vunzipo, 0x4807A057, 0xFC0FF07F⟩,
    ⟨.vpaire, 0x3C000057, 0xFC00707F⟩,
    ⟨.vpairo, 0x3C002057, 0xFC00707F⟩,
    ⟨.vsetvli, 0x00007057, 0x8000707F⟩,
    ⟨.vsetivli, 0xC0007057, 0xC000707F⟩,
    ⟨.vsetvl, 0x80007057, 0xFE00707F⟩ ]

/-- The row's test on a word. -/
def rowMatches (w : Insn) (r : OpRow) : Bool := w &&& r.mask == r.pattern

/-- The instruction a matching word stands for: its operand fields (R53, R110). -/
def buildInstr (op : Op) (w : Insn) : Instr :=
  match op with
  | .vzip => .vzipVV (fieldVd w) (fieldVs2 w) (fieldVs1 w) (fieldVm w)
  | .vunzipe => .vunzipeV (fieldVd w) (fieldVs2 w) (fieldVm w)
  | .vunzipo => .vunzipoV (fieldVd w) (fieldVs2 w) (fieldVm w)
  | .vpaire => .vpaireVV (fieldVd w) (fieldVs2 w) (fieldVs1 w) (fieldVm w)
  | .vpairo => .vpairoVV (fieldVd w) (fieldVs2 w) (fieldVs1 w) (fieldVm w)
  | .vsetvli => .vsetvli (fieldVd w) (fieldVs1 w) (fieldZimm11 w)
  | .vsetivli => .vsetivli (fieldVd w) (fieldVs1 w) (fieldZimm10 w)
  | .vsetvl => .vsetvl (fieldVd w) (fieldVs1 w) (fieldVs2 w)

/-- The instruction of a word, none if it matches no row (R59, R62). -/
def decodeWord (w : Insn) : Option Instr :=
  (opcodeTable.find? (rowMatches w)).map fun r => buildInstr r.op w

/-! ### Bytes -/

/-- The word of four bytes in the order they are stored, least significant byte first
(20_memory.md R41). -/
def wordOfBytes (b0 b1 b2 b3 : Byte) : Insn := b3 ++ b2 ++ b1 ++ b0

/-- The four bytes of a word in the order they are stored (20_memory.md R41). -/
def insnBytes (w : Insn) : List Byte :=
  [w.extractLsb' 0 8, w.extractLsb' 8 8, w.extractLsb' 16 8, w.extractLsb' 24 8]

/-- What the decoder answers. -/
inductive Decoded where
  /-- An instruction, and the bytes after it. -/
  | ok (i : Instr) (rest : List Byte)
  /-- A word that is no instruction of the spec (30_encoding.md R62). -/
  | notInstruction (w : Insn)
  /-- Fewer than the four bytes every instruction has (30_encoding.md R50). -/
  | truncated
  deriving DecidableEq, Repr

/-- The decoder: total on any bytes. -/
def decode : List Byte → Decoded
  | b0 :: b1 :: b2 :: b3 :: rest =>
    match decodeWord (wordOfBytes b0 b1 b2 b3) with
    | some i => .ok i rest
    | none => .notInstruction (wordOfBytes b0 b1 b2 b3)
  | _ => .truncated

/-! ### The encoder -/

/-- The OP-V arithmetic format of R51: `funct6 vm vs2 vs1 funct3 vd OP-V`. -/
def encodeArith (funct6 : BitVec 6) (vm : Bool) (vs2 vs1 : BitVec 5) (funct3 : BitVec 3)
    (vd : BitVec 5) : Insn :=
  funct6 ++ BitVec.ofBool vm ++ vs2 ++ vs1 ++ funct3 ++ vd ++ 0b1010111#7

/-- The word of an instruction (R54 to R58, R110). -/
def encode : Instr → Insn
  | .vzipVV vd vs2 vs1 vm => encodeArith 0b111110 vm vs2 vs1 0b010 vd
  | .vunzipeV vd vs2 vm => encodeArith 0b010010 vm vs2 0b01011 0b010 vd
  | .vunzipoV vd vs2 vm => encodeArith 0b010010 vm vs2 0b01111 0b010 vd
  | .vpaireVV vd vs2 vs1 vm => encodeArith 0b001111 vm vs2 vs1 0b000 vd
  | .vpairoVV vd vs2 vs1 vm => encodeArith 0b001111 vm vs2 vs1 0b010 vd
  | .vsetvli rd rs1 vtypei => 0b0#1 ++ vtypei ++ rs1 ++ 0b111#3 ++ rd ++ 0b1010111#7
  | .vsetivli rd uimm vtypei =>
    0b11#2 ++ vtypei.extractLsb' 0 10 ++ uimm ++ 0b111#3 ++ rd ++ 0b1010111#7
  | .vsetvl rd rs1 rs2 => 0b1000000#7 ++ rs2 ++ rs1 ++ 0b111#3 ++ rd ++ 0b1010111#7

/-! ### The host's question -/

/-- The 32-bit word the host's number stands for: its low `nbits` bits, the rest 0. -/
def tableWord (nbits w : Nat) : Insn := BitVec.ofNat 32 (w % 2 ^ nbits)

/-- What the decoder reads from the table's word, laid out as the hardware stores it. -/
def decodeTableWord (nbits w : Nat) : Option Instr :=
  match decode (insnBytes (tableWord nbits w)) with
  | .ok i _ => some i
  | .notInstruction _ => none
  | .truncated => none

end Sys2Proof
end

