-- ==== Sys2Proof/Config.lean ====
section
/-! DEFINITION. What an implementation fixes (the parameters of 00_scope.md section 4), and the free values: the agnostic draws and the `vl` choice. -/

namespace Sys2Proof

/-- The implementation parameters that are plain data (00_scope.md R3 to R6, 40_vector_common.md R83).
`State` carries one value of this type and no step writes it, so a statement over all states is a
statement over all implementations. -/
structure Config where
  /-- `XLEN` (R5). -/
  xlen : Nat
  /-- `VLEN` (R3). -/
  vlen : Nat
  /-- `ELEN` (R4). -/
  elen : Nat
  /-- The `(vsew, vlmul)` codes `vtype_supported` accepts beyond the required minimum (R6). -/
  extraVtypes : List (BitVec 3 × BitVec 3)
  /-- `nonzero_vstart_traps` (R83). -/
  nonzeroVstartTraps : Bool
  deriving DecidableEq, Repr

/-- The values R3 allows for `VLEN`: the powers of two from 32 to 65536. -/
def Config.vlenValues : List Nat :=
  [32, 64, 128, 256, 512, 1024, 2048, 4096, 8192, 16384, 32768, 65536]

/-- The bounds of R3, R4 and R5 (with D3, D4, D5) on the parameters. -/
abbrev Config.WF (c : Config) : Prop :=
  (c.xlen = 32 ∨ c.xlen = 64) ∧ c.vlen ∈ Config.vlenValues ∧
    (c.elen = 32 ∨ c.elen = 64) ∧ c.elen ≤ c.vlen

/-- FREE VALUE (40_vector_common.md R77, log 5): whether the agnostic element with the given index,
in the Zvzip execution with the given number, is overwritten with all ones (true) or kept (false). -/
opaque Config.agnosticOnes : Nat → Nat → Bool

/-- FREE VALUE (44_context_vset.md R112, log 6): the raw choice behind `vl_policy(AVL, VLMAX)`; the
model brings it into the range R112 allows. -/
opaque Config.vlChoice : Nat → Nat → Nat

end Sys2Proof
end

