-- ==== Sys2Proof/Machine/State.lean ====
section
/-! DEFINITION. The machine's state as plain data, the reasons a step can stop, and the state after reset. -/

namespace Sys2Proof.Machine

/-- Instruction memory: (address, byte) pairs in canonical form, addresses strictly rising. An unlisted
address holds no value (20_memory.md R44, log 4). -/
abbrev Memory := List Host.Cell

/-- Everything the spec gives the machine (10_state.md). -/
structure State where
  /-- The implementation's parameters (00_scope.md R3 to R6, R83); no step writes them. -/
  cfg : Config
  /-- `v0` to `v31`; `v0` also holds the mask (R20, R21). -/
  v : VRegs cfg.vlen
  /-- CSR `0xC20` (R23). -/
  vl : BitVec cfg.xlen
  /-- CSR `0xC21` (R24). -/
  vtype : BitVec cfg.xlen
  /-- CSR `0x008` (R26). -/
  vstart : BitVec cfg.xlen
  /-- CSR `0x00A` (R28). -/
  vxrm : BitVec 2
  /-- CSR `0x009` (R28). -/
  vxsat : BitVec 1
  /-- The premise `vector_enabled`: `mstatus.VS` is not Off (R29, 60_exceptions.md R128). -/
  vectorEnabled : Bool
  /-- `x0` to `x31` (R30); `x0` is read through `State.readX`, which answers 0. -/
  x : XRegs cfg.xlen
  /-- The program counter (R31). -/
  pc : BitVec cfg.xlen
  /-- The bytes of the program (20_memory.md R44). -/
  mem : Memory
  /-- The MODEL'S OWN counter of completed Zvzip instructions, which the free agnostic draws are
  applied to (40_vector_common.md R77, log 5). -/
  draws : Nat
  deriving DecidableEq, Repr

/-- Why a run ends in fault. -/
inductive Fault where
  /-- The one fault of the spec, with the `pc` of the faulting instruction and its word
  (60_exceptions.md R120). Raised by every meaning through `raiseIllegal`. SAFE: nothing is proved
  of what follows. -/
  | illegalInstruction (pc : Nat) (insn : Insn)
  deriving DecidableEq, Repr

/-- Why the model says nothing of a step. -/
inductive Refusal where
  /-- No meaning yet; only a rejected arm of `exec` answers it. SAFE. -/
  | notModelled (mnemonic : String)
  /-- The word at `pc` is not an instruction of the spec (30_encoding.md R62). Raised by `step`. SAFE. -/
  | notAnInstruction (pc : Nat) (insn : Insn)
  /-- The run has ended normally: `pc` is outside the program (70_reset_and_hazards.md R146). Raised by
  `step`. SAFE: it does not say that a chip stops there. -/
  | endOfRun (pc : Nat)
  /-- `vsetvli` or `vsetvl` with `rd = rs1 = x0` whose new `VLMAX` is not the old one, a reserved form
  (44_context_vset.md R112, U26). Raised by `execVset`. SAFE. -/
  | keepVlReserved (pc : Nat) (insn : Insn)
  /-- A Zvzip instruction in a state outside the invariants every launch state satisfies
  (10_state.md R35, log 7). Raised by `execZvzip`; no state that satisfies them reaches it. SAFE. -/
  | outsideLaunchInvariants (pc : Nat) (insn : Insn)
  deriving DecidableEq, Repr

/-- The parameters of the reset state (DESIGN CHOICE, log 1). -/
def resetConfig : Config where
  xlen := 64
  vlen := 128
  elen := 64
  extraVtypes := []
  nonzeroVstartTraps := false

/-- The machine right after reset: `vl` and `vtype` as 10_state.md R34 recommends, everything the spec
leaves unspecified at the value logs 1 to 5 name. -/
def State.reset : State where
  cfg := resetConfig
  v := Vector.replicate 32 0
  vl := 0
  vtype := BitVec.twoPow 64 63
  vstart := 0
  vxrm := 0
  vxsat := 0
  vectorEnabled := true
  x := Vector.replicate 32 0
  pc := 0x1000
  mem := []
  draws := 0

end Sys2Proof.Machine
end

