-- ==== Sys2Proof/Machine/Ops.lean ====
section
/-! DEFINITION. The named operations over memory, the integer registers, the program counter and the vector CSRs; fetching an instruction's bytes; and raising the one exception of the spec. -/

namespace Sys2Proof.Machine

/-! ### Memory -/

/-- The byte at an address, none where nothing is listed (20_memory.md R44). -/
def Memory.read : Memory → Nat → Option Byte
  | [], _ => none
  | (a, b) :: m, k => if k = a then some b else Memory.read m k

/-- Store a byte, keeping the addresses strictly rising. No instruction stores (20_memory.md R40);
loading a program does. -/
def Memory.write : Memory → Nat → Byte → Memory
  | [], k, c => [(k, c)]
  | (a, b) :: m, k, c =>
    if k < a then (k, c) :: (a, b) :: m
    else if k = a then (k, c) :: m
    else (a, b) :: Memory.write m k c

/-- The canonical form: addresses strictly rising. An unlisted address holds no value, so no entry can
equal what it reads as. -/
def Memory.wf : Memory → Bool
  | [] => true
  | (_, _) :: [] => true
  | (a, _) :: (b, c) :: m => decide (a < b) && Memory.wf ((b, c) :: m)

/-- Store bytes at consecutive addresses of the `XLEN`-bit space, which wraps at its end. -/
def Memory.writeBytes {xlen : Nat} (m : Memory) (a : BitVec xlen) : List Byte → Memory
  | [] => m
  | b :: bs => Memory.writeBytes (Memory.write m a.toNat b) (a + 1) bs

/-! ### Fetch -/

/-- The byte of the program at `pc + k`, the address taken modulo `2^XLEN`. -/
def State.fetchByte (s : State) (k : Nat) : Option Byte :=
  Memory.read s.mem (s.pc + BitVec.ofNat s.cfg.xlen k).toNat

/-- The four bytes of the instruction at `pc` (30_encoding.md R50, 20_memory.md R41), none if one of
them lies outside the program (70_reset_and_hazards.md R146). -/
def State.fetchBytes (s : State) : Option (List Byte) :=
  match s.fetchByte 0, s.fetchByte 1, s.fetchByte 2, s.fetchByte 3 with
  | some b0, some b1, some b2, some b3 => some [b0, b1, b2, b3]
  | _, _, _, _ => none

/-- The state with a word of the program stored where the next fetch reads. -/
def State.placeWord (s : State) (w : Insn) : State :=
  { s with mem := Memory.writeBytes s.mem s.pc (insnBytes w) }

/-! ### Integer registers and program counter -/

/-- Read `x[n]`; `x0` reads 0 (10_state.md R30). -/
def State.readX (s : State) (n : RegNum) : BitVec s.cfg.xlen :=
  if n = 0 then 0 else s.x[n.toNat]'n.isLt

/-- Write `x[n]`; a write to `x0` is discarded (10_state.md R30). -/
def State.writeX (s : State) (n : RegNum) (val : BitVec s.cfg.xlen) : XRegs s.cfg.xlen :=
  if n = 0 then s.x else s.x.set n.toNat val n.isLt

/-- `pc + 4`, modulo `2^XLEN` (10_state.md R31). -/
def State.nextPc (s : State) : BitVec s.cfg.xlen := s.pc + 4

/-! ### The vector CSRs as software sees them (10_state.md R23 to R28)

No instruction in scope accesses a CSR (00_scope.md section 3 leaves Zicsr out); these give the
registers their addresses and access rules. -/

/-- `vlenb`, the constant `VLEN / 8` (R27). -/
def State.vlenb (s : State) : BitVec s.cfg.xlen := BitVec.ofNat s.cfg.xlen (s.cfg.vlen / 8)

/-- `vcsr`: `{vxrm[1:0], vxsat}` (R28). -/
def State.vcsr (s : State) : BitVec 3 := s.vxrm ++ s.vxsat

/-- What a CSR read of the address gives; none where the access raises illegal-instruction (the vector
unit is off, R29) or the address is no vector CSR. DESIGN CHOICE (log 17): R28 gives `vxsat`, `vxrm` and
`vcsr` 1, 2 and 3 bits and no value above them; the `XLEN`-wide read gives zeros there. -/
def State.readCsr (s : State) (addr : BitVec 12) : Option (BitVec s.cfg.xlen) :=
  if !s.vectorEnabled then none
  else if addr = 0x008 then some s.vstart
  else if addr = 0x009 then some (s.vxsat.setWidth s.cfg.xlen)
  else if addr = 0x00A then some (s.vxrm.setWidth s.cfg.xlen)
  else if addr = 0x00F then some (s.vcsr.setWidth s.cfg.xlen)
  else if addr = 0xC20 then some s.vl
  else if addr = 0xC21 then some s.vtype
  else if addr = 0xC22 then some s.vlenb
  else none

/-- `vstart` replaced; only its low `log2(VLEN)` bits are writable (R26). -/
def State.setVstart (s : State) (val : BitVec s.cfg.xlen) : State :=
  { s with vstart := BitVec.ofNat s.cfg.xlen (val.toNat % s.cfg.vlen) }

/-- A CSR write of `vstart` (R26); none where the access raises illegal-instruction, the vector unit
being off (R29). -/
def State.writeVstart (s : State) (val : BitVec s.cfg.xlen) : Option State :=
  if s.vectorEnabled then some (s.setVstart val) else none

/-! ### The one exception -/

/-- `raise IllegalInstruction(insn)`: the run ends in the fault that carries the faulting `pc` and the
instruction's word, and nothing changes (60_exceptions.md R120, R126). -/
def raiseIllegal (i : Instr) (s : State) : Host.Outcome State Fault Refusal :=
  .fault (.illegalInstruction s.pc.toNat (encode i))

end Sys2Proof.Machine
end

