-- ==== Sys2Proof/Machine/Flags.lean ====
section
/-! DEFINITION. The hardware has no condition code (10_state.md R32). What it has in their place is `vtype`: its fields, and the value a `vset*` writes. -/

namespace Sys2Proof.Machine

/-- `vtype.vill`, bit `XLEN-1` (10_state.md R24). -/
def State.vill (s : State) : Bool := s.vtype.getLsbD (s.cfg.xlen - 1)

/-- `vtype.vma`, bit 7: inactive elements are agnostic (R24). -/
def State.vma (s : State) : Bool := s.vtype.getLsbD 7

/-- `vtype.vta`, bit 6: tail elements are agnostic (R24). -/
def State.vta (s : State) : Bool := s.vtype.getLsbD 6

/-- The `vsew` field of a `vtype` value, bits 5:3 (R24). -/
def vsewOf {xlen : Nat} (vt : BitVec xlen) : BitVec 3 := vt.extractLsb' 3 3

/-- The `vlmul` field of a `vtype` value, bits 2:0 (R24). -/
def vlmulOf {xlen : Nat} (vt : BitVec xlen) : BitVec 3 := vt.extractLsb' 0 3

/-- `vill = 1` and every other bit 0 (R24; 44_context_vset.md R111). -/
def villValue (xlen : Nat) : BitVec xlen := BitVec.twoPow xlen (xlen - 1)

/-- Whether a requested `vtype` has a bit set outside `[7:0]` (44_context_vset.md R111). -/
def hasReservedBits {xlen : Nat} (nv : BitVec xlen) : Bool := nv >>> 8 != 0

/-- `vill = 0` with `vma`, `vta`, `vsew`, `vlmul` taken from the request (44_context_vset.md R111). -/
def vtypeFrom {xlen : Nat} (nv : BitVec xlen) : BitVec xlen := (nv.extractLsb' 0 8).setWidth xlen

end Sys2Proof.Machine
end

