-- ==== Sys2Proof/Machine/Operands.lean ====
section
/-! DEFINITION. Element width and group multiplier, elements of a register group, the mask, register groups with their alignment and overlap, and the agnostic policy: the operand forms the five Zvzip instructions share (40_vector_common.md). -/

namespace Sys2Proof.Machine

/-! ### SEW and LMUL (10_state.md R25) -/

/-- A decoded `(SEW, LMUL)`. `LMUL` is held in eighths, so that 1/8 is 1 and 8 is 64. -/
structure Setting where
  sew : Nat
  lmul8 : Nat
  deriving DecidableEq, Repr

/-- `SEW` of a `vsew` code, none for a reserved code (R25). -/
def sewOf (vsew : BitVec 3) : Option Nat :=
  if vsew.toNat ≤ 3 then some (8 * 2 ^ vsew.toNat) else none

/-- `LMUL` of a `vlmul` code in eighths, none for the reserved code (R25). -/
def lmul8Of (vlmul : BitVec 3) : Option Nat :=
  if vlmul = 0b000 then some 8
  else if vlmul = 0b001 then some 16
  else if vlmul = 0b010 then some 32
  else if vlmul = 0b011 then some 64
  else if vlmul = 0b101 then some 1
  else if vlmul = 0b110 then some 2
  else if vlmul = 0b111 then some 4
  else none

/-- The setting of a pair of codes. -/
def settingOf (vsew vlmul : BitVec 3) : Option Setting :=
  match sewOf vsew, lmul8Of vlmul with
  | some sew, some lmul8 => some ⟨sew, lmul8⟩
  | _, _ => none

/-- The setting `vtype` holds; meaningful while `vill = 0`. -/
def State.setting (s : State) : Option Setting := settingOf (vsewOf s.vtype) (vlmulOf s.vtype)

/-- `VLMAX = LMUL * VLEN / SEW` (00_scope.md R7). -/
def Setting.vlmax (st : Setting) (vlen : Nat) : Nat := st.lmul8 * vlen / (8 * st.sew)

/-- `vtype_supported` (00_scope.md R6): every `SEW <= ELEN` at `LMUL >= 1`; every `SEW <= LMUL * ELEN`
at a fractional `LMUL >= 8 / ELEN`; and what the implementation adds, as far as `SEW <= ELEN` and
`VLMAX >= 1` (R4, R7). -/
def settingSupported (c : Config) (vsew vlmul : BitVec 3) (st : Setting) : Bool :=
  decide (st.sew ≤ c.elen) &&
    (decide (8 ≤ st.lmul8) ||
      (decide (64 ≤ st.lmul8 * c.elen) && decide (8 * st.sew ≤ st.lmul8 * c.elen)) ||
      (c.extraVtypes.contains (vsew, vlmul) && decide (8 * st.sew ≤ st.lmul8 * c.vlen)))

/-- The setting a requested `vtype` asks for, none where the request is to set `vill`
(44_context_vset.md R111). -/
def requestedSetting (c : Config) {xlen : Nat} (nv : BitVec xlen) : Option Setting :=
  if hasReservedBits nv then none
  else
    match settingOf (vsewOf nv) (vlmulOf nv) with
    | some st => if settingSupported c (vsewOf nv) (vlmulOf nv) st then some st else none
    | none => none

/-! ### Elements (40_vector_common.md R72) -/

/-- Vector register `n`. Every call of a legal instruction has `n <= 31` (R72); there is no register
above, and reading one gives zeros (log 7). -/
def vreg {vlen : Nat} (v : VRegs vlen) (n : Nat) : BitVec vlen :=
  if h : n < 32 then v[n] else 0

/-- `get_velem(base, w, j)` (R72). -/
def getVelem {vlen : Nat} (v : VRegs vlen) (base w j : Nat) : BitVec w :=
  (vreg v (base + j / (vlen / w))).extractLsb' (j % (vlen / w) * w) w

/-- A register with the `w` bits from `lo` upward replaced. -/
def replaceBits {vlen w : Nat} (r : BitVec vlen) (lo : Nat) (val : BitVec w) : BitVec vlen :=
  (r &&& ~~~((BitVec.allOnes w).setWidth vlen <<< lo)) ||| (val.setWidth vlen <<< lo)

/-- `set_velem(base, w, i, val)` (R72). -/
def setVelem {vlen : Nat} (v : VRegs vlen) (base w i : Nat) (val : BitVec w) : VRegs vlen :=
  v.setIfInBounds (base + i / (vlen / w))
    (replaceBits (vreg v (base + i / (vlen / w))) (i % (vlen / w) * w) val)

/-- `set_velem` of `new i` for every `i` below the count, in increasing order. -/
def writeElems {vlen : Nat} (v : VRegs vlen) (base w : Nat) (new : Nat → BitVec w) : Nat → VRegs vlen
  | 0 => v
  | n + 1 => setVelem (writeElems v base w new n) base w n (new n)

/-- The mask bit of element `i`: bit `i` of `v0` (10_state.md R21). -/
def maskBit {vlen : Nat} (v : VRegs vlen) (i : Nat) : Bool := (vreg v 0).getLsbD i

/-! ### Register groups (10_state.md R22; 40_vector_common.md R80, R81)

Group multipliers are in eighths, as `LMUL` is. -/

/-- The number of registers of a group, `max(1, EMUL)` (R22). -/
def groupSize (emul8 : Nat) : Nat := max 1 (emul8 / 8)

/-- The group alignment check: `r mod max(1, EMUL) = 0` (R80). -/
def groupAligned (r emul8 : Nat) : Bool := r % groupSize emul8 == 0

/-- Two groups have a register in common: `regs(r, E)` meets `regs(q, F)` (R81). -/
def groupsMeet (r remul8 q qemul8 : Nat) : Bool :=
  decide (r < q + groupSize qemul8) && decide (q < r + groupSize remul8)

/-- Masked, with `v0` in the destination group: `vm = 0 and 0 in regs(vd, E)` (R81). -/
def masksOverDest (vm : Bool) (vd emul8 : Nat) : Bool := !vm && groupsMeet vd emul8 0 8

/-- The number of elements in the registers a group occupies, `DCAP = max(1, EMUL) * VLEN / SEW`
(R73). -/
def groupCapacity (vlen sew emul8 : Nat) : Nat := groupSize emul8 * vlen / sew

/-! ### Agnostic elements (40_vector_common.md R76 to R78) -/

/-- An element under a policy: undisturbed keeps the old value; agnostic is `draw{old, ones}`. -/
def policyElem {w : Nat} (agnostic drawsOnes : Bool) (old : BitVec w) : BitVec w :=
  if agnostic && drawsOnes then BitVec.allOnes w else old

end Sys2Proof.Machine
end

