-- ==== Sys2Proof/Machine/Template.lean ====
section
/-! DEFINITION. The execution template all five Zvzip instructions share (40_vector_common.md R82 to R86). -/

namespace Sys2Proof.Machine

/-- What the template takes from one instruction, its register fields and the setting plugged in
(40_vector_common.md R70, R79). -/
structure Plan (vlen sew : Nat) where
  /-- The destination's first register. -/
  vd : Nat
  /-- True for the unmasked form. -/
  vm : Bool
  /-- `EVL`. -/
  evl : Nat
  /-- The destination's group multiplier in eighths. -/
  destEmul8 : Nat
  /-- `result_op(S, i)`, from the snapshot `S` of the register file. -/
  result : VRegs vlen → Nat → BitVec sew

/-- Checks 1 to 3 of R82, and then the setting. A `vtype` with `vill = 0` and a reserved code is no
launch state's (10_state.md R35). -/
def vectorGate (i : Instr) (s : State) (body : Setting → Host.Outcome State Fault Refusal) :
    Host.Outcome State Fault Refusal :=
  if !s.vectorEnabled then raiseIllegal i s
  else if s.vill then raiseIllegal i s
  else if s.cfg.nonzeroVstartTraps && s.vstart != 0 then raiseIllegal i s
  else
    match s.setting with
    | some st => body st
    | none => .refused (.outsideLaunchInvariants s.pc.toNat (encode i))

/-- The parts of the invariants R35 that the template relies on: `vl <= VLMAX`, and an element fits in
a register. -/
def insideLaunchInvariants (s : State) (st : Setting) : Bool :=
  decide (s.vl.toNat ≤ st.vlmax s.cfg.vlen) && decide (st.sew ≤ s.cfg.vlen)

/-- The new value of destination element `i`: prestart, active, inactive, tail (R73 to R78, R86). All
reads are from the register file on entry (R85). -/
def newElem (s : State) {sew : Nat} (p : Plan s.cfg.vlen sew) (i : Nat) : BitVec sew :=
  let old := getVelem s.v p.vd sew i
  if i < s.vstart.toNat then old
  else if i < p.evl then
    if p.vm || maskBit s.v i then p.result s.v i
    else policyElem s.vma (Config.agnosticOnes s.draws i) old
  else policyElem s.vta (Config.agnosticOnes s.draws i) old

/-- The register file the instruction leaves: nothing is written when `vstart >= EVL` (R83). -/
def destination (s : State) {sew : Nat} (p : Plan s.cfg.vlen sew) : VRegs s.cfg.vlen :=
  if s.vstart.toNat < p.evl then
    writeElems s.v p.vd sew (newElem s p) (groupCapacity s.cfg.vlen sew p.destEmul8)
  else s.v

/-- The normal end of a Zvzip instruction: `vstart <- 0`, `pc <- pc + 4` (R84), and the next execution
draws afresh (R77). -/
def retire (s : State) (v : VRegs s.cfg.vlen) : State :=
  { s with v := v, vstart := 0, pc := s.nextPc, draws := s.draws + 1 }

/-- A Zvzip instruction (R86). `illegal` is checks 4 and 5 of R82, the alignment checks of R80 and the
reserved predicate of R81. -/
def execZvzip (i : Instr) (illegal : Setting → Bool)
    (s : State) (plan : (st : Setting) → Plan s.cfg.vlen st.sew) :
    Host.Outcome State Fault Refusal :=
  vectorGate i s fun st =>
    if illegal st then raiseIllegal i s
    else if insideLaunchInvariants s st then .next (retire s (destination s (plan st)))
    else .refused (.outsideLaunchInvariants s.pc.toNat (encode i))

end Sys2Proof.Machine
end

