-- ==== Sys2Proof/Machine/Pair.lean ====
section
/-! DEFINITION. `vpaire.vv` and `vpairo.vv` (43_vpair.md R100, R101). -/

namespace Sys2Proof.Machine

/-- The alignment checks of R80 and `reserved_vpair` of R81. -/
def illegalVpair (vd vs2 vs1 : RegNum) (vm : Bool) (lmul8 : Nat) : Bool :=
  !groupAligned vd.toNat lmul8 || !groupAligned vs2.toNat lmul8 ||
    !groupAligned vs1.toNat lmul8 || groupsMeet vd.toNat lmul8 vs2.toNat lmul8 ||
    groupsMeet vd.toNat lmul8 vs1.toNat lmul8 || masksOverDest vm vd.toNat lmul8

/-- `result_vpaire` of R100. -/
def resultVpaire {vlen : Nat} (vs2 vs1 : RegNum) (sew : Nat) (v : VRegs vlen) (i : Nat) :
    BitVec sew :=
  if i % 2 = 0 then getVelem v vs2.toNat sew i else getVelem v vs1.toNat sew (i - 1)

/-- The source index `j` of `result_vpairo` (R101). -/
def vpairoIndex (i : Nat) : Nat := if i % 2 = 0 then i + 1 else i

/-- `result_vpairo` of R101: the index is tested against `VLMAX` before the source is chosen (C6). -/
def resultVpairo {vlen : Nat} (vs2 vs1 : RegNum) (sew vlmax : Nat) (v : VRegs vlen) (i : Nat) :
    BitVec sew :=
  if vlmax ≤ vpairoIndex i then 0
  else if i % 2 = 0 then getVelem v vs2.toNat sew (vpairoIndex i)
  else getVelem v vs1.toNat sew (vpairoIndex i)

/-- `vpaire.vv vd, vs2, vs1, vm`: `EVL = VL`, destination `EMUL = LMUL` (R79, R100). -/
def execVpaireVV (vd vs2 vs1 : RegNum) (vm : Bool) (s : State) :
    Host.Outcome State Fault Refusal :=
  execZvzip (.vpaireVV vd vs2 vs1 vm) (fun st => illegalVpair vd vs2 vs1 vm st.lmul8) s fun st =>
    { vd := vd.toNat, vm := vm, evl := s.vl.toNat, destEmul8 := st.lmul8,
      result := resultVpaire vs2 vs1 st.sew }

/-- `vpairo.vv vd, vs2, vs1, vm`: `EVL = VL`, destination `EMUL = LMUL` (R79, R101). -/
def execVpairoVV (vd vs2 vs1 : RegNum) (vm : Bool) (s : State) :
    Host.Outcome State Fault Refusal :=
  execZvzip (.vpairoVV vd vs2 vs1 vm) (fun st => illegalVpair vd vs2 vs1 vm st.lmul8) s fun st =>
    { vd := vd.toNat, vm := vm, evl := s.vl.toNat, destEmul8 := st.lmul8,
      result := resultVpairo vs2 vs1 st.sew (st.vlmax s.cfg.vlen) }

end Sys2Proof.Machine
end

