-- ==== Sys2Proof/Machine/Unzip.lean ====
section
/-! DEFINITION. `vunzipe.v` and `vunzipo.v` (42_vunzip.md R95, R96). -/

namespace Sys2Proof.Machine

/-- The alignment checks of R80 and `reserved_vunzip` of R81. -/
def illegalVunzip (vd vs2 : RegNum) (vm : Bool) (lmul8 : Nat) : Bool :=
  !groupAligned vd.toNat lmul8 || !groupAligned vs2.toNat (2 * lmul8) || lmul8 == 64 ||
    (groupsMeet vd.toNat lmul8 vs2.toNat (2 * lmul8) && vd != vs2) ||
    masksOverDest vm vd.toNat lmul8

/-- `result_vunzipe` of R95. -/
def resultVunzipe {vlen : Nat} (vs2 : RegNum) (sew : Nat) (v : VRegs vlen) (i : Nat) : BitVec sew :=
  getVelem v vs2.toNat sew (2 * i)

/-- `result_vunzipo` of R96. -/
def resultVunzipo {vlen : Nat} (vs2 : RegNum) (sew : Nat) (v : VRegs vlen) (i : Nat) : BitVec sew :=
  getVelem v vs2.toNat sew (2 * i + 1)

/-- `vunzipe.v vd, vs2, vm`: `EVL = VL`, destination `EMUL = LMUL` (R79, R95). -/
def execVunzipeV (vd vs2 : RegNum) (vm : Bool) (s : State) : Host.Outcome State Fault Refusal :=
  execZvzip (.vunzipeV vd vs2 vm) (fun st => illegalVunzip vd vs2 vm st.lmul8) s fun st =>
    { vd := vd.toNat, vm := vm, evl := s.vl.toNat, destEmul8 := st.lmul8,
      result := resultVunzipe vs2 st.sew }

/-- `vunzipo.v vd, vs2, vm`: `EVL = VL`, destination `EMUL = LMUL` (R79, R96). -/
def execVunzipoV (vd vs2 : RegNum) (vm : Bool) (s : State) : Host.Outcome State Fault Refusal :=
  execZvzip (.vunzipoV vd vs2 vm) (fun st => illegalVunzip vd vs2 vm st.lmul8) s fun st =>
    { vd := vd.toNat, vm := vm, evl := s.vl.toNat, destEmul8 := st.lmul8,
      result := resultVunzipo vs2 st.sew }

end Sys2Proof.Machine
end

