-- ==== Sys2Proof/Machine/Vset.lean ====
section
/-! DEFINITION. The context instructions `vsetvli`, `vsetivli`, `vsetvl` (44_context_vset.md R110 to R112). -/

namespace Sys2Proof.Machine

/-- Where the application vector length comes from (R112). -/
inductive Avl where
  /-- A requested number of elements. -/
  | value (n : Nat)
  /-- The form `rd = rs1 = x0`: keep the current `vl`. -/
  | keepVl
  deriving DecidableEq, Repr

/-- The AVL of `vsetvli` and `vsetvl` (R112): `x[rs1]`; with `rs1 = x0` and `rd != x0` the largest
unsigned value; with both `x0` the keep form. -/
def State.avlOf (s : State) (rd rs1 : RegNum) : Avl :=
  if rs1 != 0 then .value (s.readX rs1).toNat
  else if rd != 0 then .value (2 ^ s.cfg.xlen - 1)
  else .keepVl

/-- `ceil(AVL / 2)`. -/
def halfUp (avl : Nat) : Nat := (avl + 1) / 2

/-- `vl_policy(AVL, VLMAX)`: some value in `[ceil(AVL/2), VLMAX]`, fixed for an input
(R112; a FREE VALUE, log 6). -/
def vlPolicy (avl vlmax : Nat) : Nat :=
  halfUp avl + Config.vlChoice avl vlmax % (vlmax + 1 - halfUp avl)

/-- The new `vl` (R112). -/
def newVl (avl vlmax : Nat) : Nat :=
  if avl ≤ vlmax then avl else if 2 * vlmax ≤ avl then vlmax else vlPolicy avl vlmax

/-- `VLMAX` of the current `vtype`; none while `vill = 1`, when there is no current setting. -/
def State.currentVlmax (s : State) : Option Nat :=
  if s.vill then none else s.setting.map fun st => st.vlmax s.cfg.vlen

/-- The end of a `vset*`: `vtype`, `vl`, `x[rd] <- vl`, `vstart <- 0`, `pc <- pc + 4` (R111, R112). -/
def setVl (s : State) (rd : RegNum) (vt : BitVec s.cfg.xlen) (vl : Nat) : State :=
  { s with
    vtype := vt
    vl := BitVec.ofNat s.cfg.xlen vl
    x := s.writeX rd (BitVec.ofNat s.cfg.xlen vl)
    vstart := 0
    pc := s.nextPc }

/-- A `vset*` that requests the `vtype` value `nv` (R111, R112). -/
def execVset (i : Instr) (rd : RegNum) (avl : Avl) (s : State) (nv : BitVec s.cfg.xlen) :
    Host.Outcome State Fault Refusal :=
  if !s.vectorEnabled then raiseIllegal i s
  else
    match requestedSetting s.cfg nv with
    | none => .next (setVl s rd (villValue s.cfg.xlen) 0)
    | some st =>
      let vlmax := st.vlmax s.cfg.vlen
      match avl with
      | .value n => .next (setVl s rd (vtypeFrom nv) (newVl n vlmax))
      | .keepVl =>
        if s.currentVlmax = some vlmax then
          .next (setVl s rd (vtypeFrom nv) (newVl s.vl.toNat vlmax))
        else .refused (.keepVlReserved s.pc.toNat (encode i))

/-- `vsetvli rd, rs1, vtypei`. -/
def execVsetvli (rd rs1 : RegNum) (vtypei : BitVec 11) (s : State) :
    Host.Outcome State Fault Refusal :=
  execVset (.vsetvli rd rs1 vtypei) rd (s.avlOf rd rs1) s (vtypei.setWidth s.cfg.xlen)

/-- `vsetivli rd, uimm, vtypei`: the AVL is the 5-bit immediate. -/
def execVsetivli (rd : RegNum) (uimm : BitVec 5) (vtypei : BitVec 11) (s : State) :
    Host.Outcome State Fault Refusal :=
  execVset (.vsetivli rd uimm vtypei) rd (.value uimm.toNat) s (vtypei.setWidth s.cfg.xlen)

/-- `vsetvl rd, rs1, rs2`: the requested `vtype` is `x[rs2]`. -/
def execVsetvl (rd rs1 rs2 : RegNum) (s : State) : Host.Outcome State Fault Refusal :=
  execVset (.vsetvl rd rs1 rs2) rd (s.avlOf rd rs1) s (s.readX rs2)

end Sys2Proof.Machine
end

