-- ==== Sys2Proof/Machine/Zip.lean ====
section
/-! DEFINITION. `vzip.vv` (41_vzip.md R90). -/

namespace Sys2Proof.Machine

/-- `bad_src(s)` of R81: the source meets the destination other than as its upper half at
`LMUL >= 1`. -/
def vzipBadSource (vd src lmul8 : Nat) : Bool :=
  groupsMeet vd (2 * lmul8) src lmul8 && !(decide (8 ≤ lmul8) && src == vd + lmul8 / 8)

/-- The alignment checks of R80 and `reserved_vzip` of R81. -/
def illegalVzip (vd vs2 vs1 : RegNum) (vm : Bool) (lmul8 : Nat) : Bool :=
  !groupAligned vd.toNat (2 * lmul8) || !groupAligned vs2.toNat lmul8 ||
    !groupAligned vs1.toNat lmul8 || lmul8 == 64 || vzipBadSource vd.toNat vs2.toNat lmul8 ||
    vzipBadSource vd.toNat vs1.toNat lmul8 || masksOverDest vm vd.toNat (2 * lmul8)

/-- `result_vzip` of R90. -/
def resultVzip {vlen : Nat} (vs2 vs1 : RegNum) (sew : Nat) (v : VRegs vlen) (i : Nat) : BitVec sew :=
  if i % 2 = 0 then getVelem v vs2.toNat sew (i / 2) else getVelem v vs1.toNat sew (i / 2)

/-- `vzip.vv vd, vs2, vs1, vm`: `EVL = 2*VL`, destination `EMUL = 2*LMUL` (R79, R90). -/
def execVzipVV (vd vs2 vs1 : RegNum) (vm : Bool) (s : State) : Host.Outcome State Fault Refusal :=
  execZvzip (.vzipVV vd vs2 vs1 vm) (fun st => illegalVzip vd vs2 vs1 vm st.lmul8) s fun st =>
    { vd := vd.toNat, vm := vm, evl := 2 * s.vl.toNat, destEmul8 := 2 * st.lmul8,
      result := resultVzip vs2 vs1 st.sew }

end Sys2Proof.Machine
end

