-- ==== Sys2Proof/Machine/Dispatch.lean ====
section
/-! DEFINITION. One arm per instruction. -/

namespace Sys2Proof.Machine

def exec (i : Instr) (s : State) : Host.Outcome State Fault Refusal :=
  match i with
  | .vzipVV vd vs2 vs1 vm => Sys2Proof.Machine.execVzipVV vd vs2 vs1 vm s
  | .vunzipeV vd vs2 vm => Sys2Proof.Machine.execVunzipeV vd vs2 vm s
  | .vunzipoV vd vs2 vm => Sys2Proof.Machine.execVunzipoV vd vs2 vm s
  | .vpaireVV vd vs2 vs1 vm => Sys2Proof.Machine.execVpaireVV vd vs2 vs1 vm s
  | .vpairoVV vd vs2 vs1 vm => Sys2Proof.Machine.execVpairoVV vd vs2 vs1 vm s
  | .vsetvli rd rs1 vtypei => Sys2Proof.Machine.execVsetvli rd rs1 vtypei s
  | .vsetivli rd uimm vtypei => Sys2Proof.Machine.execVsetivli rd uimm vtypei s
  | .vsetvl rd rs1 rs2 => Sys2Proof.Machine.execVsetvl rd rs1 rs2 s

end Sys2Proof.Machine
end

