-- ==== Sys2Proof/Machine/Step.lean ====
section
/-! DEFINITION. One step: fetch, decode, execute; and where the host places the word it asks about. -/

namespace Sys2Proof.Machine

/-- One instruction (00_scope.md R11). A run ends normally when `pc` is outside the program
(70_reset_and_hazards.md R146); a word that is no instruction of the spec is refused
(30_encoding.md R62). -/
def step (s : State) : Host.Outcome State Fault Refusal :=
  match s.fetchBytes with
  | none => .refused (.endOfRun s.pc.toNat)
  | some bytes =>
    match decode bytes with
    | .ok i _ => exec i s
    | .notInstruction w => .refused (.notAnInstruction s.pc.toNat w)
    | .truncated => .refused (.endOfRun s.pc.toNat)

/-- The state with the host's word stored where `step` fetches next. -/
def State.withFetchWord (s : State) (nbits w : Nat) : State := s.placeWord (tableWord nbits w)

end Sys2Proof.Machine
end

