-- ==== Sys2Proof/Safety.lean ====
section
/-! DEFINITION. What claims are stated in: the invariants every launch state satisfies, when an instruction is legal, and what a Zvzip instruction does to its destination, each in the words of the rules and not by the functions that execute them. -/

namespace Sys2Proof.Machine

/-! ### The invariants of a state (10_state.md R35) -/

/-- `vtype` and `vl` agree (R35): with `vill = 1` all other bits and `vl` are 0; with `vill = 0` the
reserved bits are 0 (R24), the setting is supported and `vl <= VLMAX`. -/
abbrev State.VtypeConsistent (s : State) : Prop :=
  (s.vill = true → s.vtype = villValue s.cfg.xlen ∧ s.vl = 0) ∧
    (s.vill = false →
      match requestedSetting s.cfg s.vtype with
      | some st => s.vl.toNat ≤ st.vlmax s.cfg.vlen
      | none => False)

/-- The bounds on the parameters, the invariants R35, `x0` holding 0 (R30), and the program's bytes in
canonical form inside the address space (20_memory.md R40). -/
structure State.Inv (s : State) : Prop where
  cfg : s.cfg.WF
  vtype : s.VtypeConsistent
  vstart : s.vstart.toNat < s.cfg.vlen
  x0 : s.x[0] = 0
  memWf : Memory.wf s.mem = true
  memBound : ∀ c ∈ s.mem, c.1 < 2 ^ s.cfg.xlen

/-- A step that does not end the run in fault; a claim about a program proves it of every step
(60_exceptions.md R120). -/
def FaultFree (s : State) : Prop := ∀ f, step s ≠ .fault f

/-! ### Legality (40_vector_common.md R80 to R82) -/

/-- Checks 1 to 3 of R82 pass, with the current setting. -/
abbrev Ready (s : State) (st : Setting) : Prop :=
  s.vectorEnabled = true ∧ s.vill = false ∧
    (s.cfg.nonzeroVstartTraps = true → s.vstart = 0) ∧ s.setting = some st

/-- Register `n` is in `regs(r, EMUL)`, the multiplier in eighths (10_state.md R22). -/
abbrev InGroup (r emul8 n : Nat) : Prop := r ≤ n ∧ n < r + max 1 (emul8 / 8)

/-- The group alignment rule (R80): with `EMUL > 1` the register is a multiple of `EMUL`. -/
abbrev Aligned (r emul8 : Nat) : Prop := 8 < emul8 → r % (emul8 / 8) = 0

/-- No register is in both groups. -/
abbrev GroupsDisjoint (r remul8 q qemul8 : Nat) : Prop :=
  ∀ n < 32, ¬ (InGroup r remul8 n ∧ InGroup q qemul8 n)

/-- `vzip.vv` is not reserved: R80, RSV1 and RSV2 of 30_encoding.md R60, RSV11 of R61. Each source is
disjoint from the destination or, at `LMUL >= 1`, its upper half. -/
abbrev LegalVzip (vd vs2 vs1 : RegNum) (vm : Bool) (lmul8 : Nat) : Prop :=
  lmul8 ≠ 64 ∧ Aligned vd.toNat (2 * lmul8) ∧ Aligned vs2.toNat lmul8 ∧ Aligned vs1.toNat lmul8 ∧
    (GroupsDisjoint vd.toNat (2 * lmul8) vs2.toNat lmul8 ∨
      (8 ≤ lmul8 ∧ vs2.toNat = vd.toNat + lmul8 / 8)) ∧
    (GroupsDisjoint vd.toNat (2 * lmul8) vs1.toNat lmul8 ∨
      (8 ≤ lmul8 ∧ vs1.toNat = vd.toNat + lmul8 / 8)) ∧
    (vm = false → ¬ InGroup vd.toNat (2 * lmul8) 0)

/-- `vunzipe.v` and `vunzipo.v` are not reserved: R80, RSV3 to RSV6, RSV11. The destination is disjoint
from the source group or starts where it starts. -/
abbrev LegalVunzip (vd vs2 : RegNum) (vm : Bool) (lmul8 : Nat) : Prop :=
  lmul8 ≠ 64 ∧ Aligned vd.toNat lmul8 ∧ Aligned vs2.toNat (2 * lmul8) ∧
    (GroupsDisjoint vd.toNat lmul8 vs2.toNat (2 * lmul8) ∨ vd = vs2) ∧
    (vm = false → ¬ InGroup vd.toNat lmul8 0)

/-- `vpaire.vv` and `vpairo.vv` are not reserved: R80, RSV7, RSV8. `LMUL = 8` is legal (R64). -/
abbrev LegalVpair (vd vs2 vs1 : RegNum) (vm : Bool) (lmul8 : Nat) : Prop :=
  Aligned vd.toNat lmul8 ∧ Aligned vs2.toNat lmul8 ∧ Aligned vs1.toNat lmul8 ∧
    GroupsDisjoint vd.toNat lmul8 vs2.toNat lmul8 ∧
    GroupsDisjoint vd.toNat lmul8 vs1.toNat lmul8 ∧
    (vm = false → ¬ InGroup vd.toNat lmul8 0)

/-! ### The destination (40_vector_common.md R73 to R79) -/

/-- A row of R79's table: the destination, the mask enable, and the factors of `LMUL` and `VL` that
give the destination's `EMUL` and the `EVL`. -/
structure DestShape where
  vd : RegNum
  vm : Bool
  emulFactor : Nat
  evlFactor : Nat
  deriving DecidableEq, Repr

/-- The register file `v'` is what R73 to R78 and R83 make of the entry state's: registers outside the
destination group keep their value; with an empty body nothing is written; otherwise each element of
the destination's registers is prestart, active, inactive or tail. An agnostic element holds its old
value or all ones, and the statement does not say which. -/
def WritesDestination (s : State) (v' : VRegs s.cfg.vlen) (sew vd emul8 evl : Nat) (vm : Bool)
    (result : Nat → BitVec sew) : Prop :=
  (∀ n < 32, ¬ InGroup vd emul8 n → vreg v' n = vreg s.v n) ∧
    (evl ≤ s.vstart.toNat → v' = s.v) ∧
    (s.vstart.toNat < evl →
      ∀ k < max 1 (emul8 / 8) * s.cfg.vlen / sew,
        (k < s.vstart.toNat → getVelem v' vd sew k = getVelem s.v vd sew k) ∧
        (s.vstart.toNat ≤ k → k < evl → (vm = true ∨ maskBit s.v k = true) →
          getVelem v' vd sew k = result k) ∧
        (s.vstart.toNat ≤ k → k < evl → vm = false → maskBit s.v k = false →
          getVelem v' vd sew k = getVelem s.v vd sew k ∨
            (s.vma = true ∧ getVelem v' vd sew k = BitVec.allOnes sew)) ∧
        (evl ≤ k →
          getVelem v' vd sew k = getVelem s.v vd sew k ∨
            (s.vta = true ∧ getVelem v' vd sew k = BitVec.allOnes sew)))

/-! ### The source's loop (40_vector_common.md R85) -/

/-- The source's Sail loop run as it is written, over `count` elements from `start` upward: each
iteration reads the mask and the sources from the register file the iterations before it left, and
writes its element (40_vector_common.md R85). -/
def sailLoop {vlen sew : Nat} (vd : Nat) (vm : Bool) (result : VRegs vlen → Nat → BitVec sew)
    (start : Nat) (v : VRegs vlen) : Nat → VRegs vlen
  | 0 => v
  | n + 1 =>
    let w := sailLoop vd vm result start v n
    if vm = true ∨ maskBit w (start + n) = true then
      setVelem w vd sew (start + n) (result w (start + n))
    else w

/-! ### The context instructions (44_context_vset.md R111, R112) -/

/-- The request `nv` is granted with the setting: no bit outside `[7:0]` is set, `vsew` and `vlmul` are
codes of R25's tables, and the setting is supported (00_scope.md R6): `SEW <= ELEN`, and `LMUL >= 1`,
or a fractional `LMUL >= 8 / ELEN` with `SEW <= LMUL * ELEN`, or one the implementation adds with
`VLMAX >= 1`. -/
abbrev RequestGranted (c : Config) {xlen : Nat} (nv : BitVec xlen) (st : Setting) : Prop :=
  nv.toNat < 256 ∧
    (nv.toNat / 8 % 8, st.sew) ∈ [(0, 8), (1, 16), (2, 32), (3, 64)] ∧
    (nv.toNat % 8, st.lmul8) ∈ [(0, 8), (1, 16), (2, 32), (3, 64), (5, 1), (6, 2), (7, 4)] ∧
    st.sew ≤ c.elen ∧
    (8 ≤ st.lmul8 ∨ (64 ≤ st.lmul8 * c.elen ∧ 8 * st.sew ≤ st.lmul8 * c.elen) ∨
      ((BitVec.ofNat 3 (nv.toNat / 8), BitVec.ofNat 3 nv.toNat) ∈ c.extraVtypes ∧
        8 * st.sew ≤ st.lmul8 * c.vlen))

/-- The values R112 allows for the new `vl`. -/
abbrev NewVlAllowed (avl vlmax vl : Nat) : Prop :=
  (avl ≤ vlmax → vl = avl) ∧
    (vlmax < avl → 2 * vlmax ≤ avl → vl = vlmax) ∧
    (vlmax < avl → avl < 2 * vlmax → (avl + 1) / 2 ≤ vl ∧ vl ≤ vlmax)

/-- The integer registers after `x[rd] <- vl (if rd != x0)`. -/
def xAfter (s : State) (rd : RegNum) (vl : Nat) : XRegs s.cfg.xlen :=
  if rd = 0 then s.x else s.x.set rd.toNat (BitVec.ofNat s.cfg.xlen vl) rd.isLt

end Sys2Proof.Machine

namespace Sys2Proof

open Machine

/-! ### What an instruction is: destination, sources, legality, result, integer destination -/

/-- The destination of a Zvzip instruction; none for the context instructions. -/
def Instr.destShape : Instr → Option DestShape
  | .vzipVV vd _ _ vm => some ⟨vd, vm, 2, 2⟩
  | .vunzipeV vd _ vm => some ⟨vd, vm, 1, 1⟩
  | .vunzipoV vd _ vm => some ⟨vd, vm, 1, 1⟩
  | .vpaireVV vd _ _ vm => some ⟨vd, vm, 1, 1⟩
  | .vpairoVV vd _ _ vm => some ⟨vd, vm, 1, 1⟩
  | .vsetvli _ _ _ => none
  | .vsetivli _ _ _ => none
  | .vsetvl _ _ _ => none

/-- The Zvzip instruction is legal at the group multiplier (R80, R81); true of a context instruction,
which has no such rule. -/
def Instr.Legal (i : Instr) (lmul8 : Nat) : Prop :=
  match i with
  | .vzipVV vd vs2 vs1 vm => LegalVzip vd vs2 vs1 vm lmul8
  | .vunzipeV vd vs2 vm => LegalVunzip vd vs2 vm lmul8
  | .vunzipoV vd vs2 vm => LegalVunzip vd vs2 vm lmul8
  | .vpaireVV vd vs2 vs1 vm => LegalVpair vd vs2 vs1 vm lmul8
  | .vpairoVV vd vs2 vs1 vm => LegalVpair vd vs2 vs1 vm lmul8
  | .vsetvli _ _ _ => True
  | .vsetivli _ _ _ => True
  | .vsetvl _ _ _ => True

/-- The value the source's Sail computes for destination element `k` from the register file `v`; zeros
for a context instruction, which has none. -/
def Instr.sailResult {vlen : Nat} (i : Instr) (sew vlmax : Nat) (v : VRegs vlen) (k : Nat) :
    BitVec sew :=
  match i with
  | .vzipVV _ vs2 vs1 _ =>
    if k % 2 = 0 then getVelem v vs2.toNat sew (k / 2) else getVelem v vs1.toNat sew (k / 2)
  | .vunzipeV _ vs2 _ => getVelem v vs2.toNat sew (2 * k)
  | .vunzipoV _ vs2 _ => getVelem v vs2.toNat sew (2 * k + 1)
  | .vpaireVV _ vs2 vs1 _ =>
    if k % 2 = 0 then getVelem v vs2.toNat sew k else getVelem v vs1.toNat sew (k - 1)
  | .vpairoVV _ vs2 vs1 _ =>
    if vlmax ≤ (if k % 2 = 0 then k + 1 else k) then 0
    else if k % 2 = 0 then getVelem v vs2.toNat sew (k + 1)
    else getVelem v vs1.toNat sew k
  | .vsetvli _ _ _ => 0
  | .vsetivli _ _ _ => 0
  | .vsetvl _ _ _ => 0

/-- The register groups a Zvzip instruction reads its sources from, first register and group
multiplier in eighths (10_state.md R33). -/
def Instr.sourceGroups (i : Instr) (lmul8 : Nat) : List (Nat × Nat) :=
  match i with
  | .vzipVV _ vs2 vs1 _ => [(vs2.toNat, lmul8), (vs1.toNat, lmul8)]
  | .vunzipeV _ vs2 _ => [(vs2.toNat, 2 * lmul8)]
  | .vunzipoV _ vs2 _ => [(vs2.toNat, 2 * lmul8)]
  | .vpaireVV _ vs2 vs1 _ => [(vs2.toNat, lmul8), (vs1.toNat, lmul8)]
  | .vpairoVV _ vs2 vs1 _ => [(vs2.toNat, lmul8), (vs1.toNat, lmul8)]
  | .vsetvli _ _ _ => []
  | .vsetivli _ _ _ => []
  | .vsetvl _ _ _ => []

/-- The `vtype` value a context instruction requests (44_context_vset.md R111); none for a Zvzip
instruction. -/
def Instr.vtypeRequest (i : Instr) (s : State) : Option (BitVec s.cfg.xlen) :=
  match i with
  | .vsetvli _ _ vtypei => some (vtypei.setWidth s.cfg.xlen)
  | .vsetivli _ _ vtypei => some (vtypei.setWidth s.cfg.xlen)
  | .vsetvl _ _ rs2 => some (s.readX rs2)
  | .vzipVV _ _ _ _ => none
  | .vunzipeV _ _ _ => none
  | .vunzipoV _ _ _ => none
  | .vpaireVV _ _ _ _ => none
  | .vpairoVV _ _ _ _ => none

/-- The integer destination of a context instruction; none for a Zvzip instruction. -/
def Instr.vsetRd : Instr → Option RegNum
  | .vsetvli rd _ _ => some rd
  | .vsetivli rd _ _ => some rd
  | .vsetvl rd _ _ => some rd
  | .vzipVV _ _ _ _ => none
  | .vunzipeV _ _ _ => none
  | .vunzipoV _ _ _ => none
  | .vpaireVV _ _ _ _ => none
  | .vpairoVV _ _ _ _ => none

end Sys2Proof
end

