-- ==== Sys2Proof/Certificates/Slice0/Obligations.lean ====
section
/-! DEFINITION. The statements for the provers. Each docstring names the rules of spec/ it rests on. -/

open Sys2Proof Sys2Proof.Machine

/-! ### Encoding -/

/-- One word of each row, written from 30_encoding.md R54 to R58 and 44_context_vset.md R110. -/
def Obligations.WordsOfEachRowDecode : Prop :=
  decodeWord 0b111110_1_00010_00001_010_00100_1010111#32 = some (.vzipVV 4 2 1 true) ∧
  decodeWord 0b010010_0_00100_01011_010_00110_1010111#32 = some (.vunzipeV 6 4 false) ∧
  decodeWord 0b010010_1_00100_01111_010_00111_1010111#32 = some (.vunzipoV 7 4 true) ∧
  decodeWord 0b001111_1_00001_00010_000_00101_1010111#32 = some (.vpaireVV 5 1 2 true) ∧
  decodeWord 0b001111_0_00001_00010_010_00110_1010111#32 = some (.vpairoVV 6 1 2 false) ∧
  decodeWord 0b0_00011010000_00000_111_00101_1010111#32 = some (.vsetvli 5 0 0xD0) ∧
  decodeWord 0b11_0000010000_00011_111_00101_1010111#32 = some (.vsetivli 5 3 0x10) ∧
  decodeWord 0b1000000_01011_01010_111_00101_1010111#32 = some (.vsetvl 5 10 11)

/-- Decoding the stored bytes of a well-formed instruction gives it back, with the bytes after it, for
every value of every operand (30_encoding.md R51, R53 to R58; 44_context_vset.md R110; 20_memory.md
R41). -/
def Obligations.DecodeOfEncodeIsTheInstruction : Prop :=
  ∀ i : Instr, WellFormed i → ∀ rest : List Byte, decode (insnBytes (encode i) ++ rest) = .ok i rest

/-- A word that decodes is the word of the instruction it decodes to, which is well formed: no bit of a
matching word is dropped. -/
def Obligations.EncodeOfDecodeIsTheWord : Prop :=
  ∀ (w : Insn) (i : Instr), decodeWord w = some i → WellFormed i ∧ encode i = w

/-- No word satisfies two rows; a word that satisfies one decodes to that row's instruction; a word that
satisfies none decodes to nothing (30_encoding.md R59, R62). -/
def Obligations.RowsAreExclusiveAndDecide : Prop :=
  ∀ w : Insn,
    (∀ r ∈ opcodeTable, ∀ q ∈ opcodeTable, w &&& r.mask = r.pattern → w &&& q.mask = q.pattern →
      r = q) ∧
    (∀ r ∈ opcodeTable, w &&& r.mask = r.pattern → decodeWord w = some (buildInstr r.op w)) ∧
    ((∀ r ∈ opcodeTable, w &&& r.mask ≠ r.pattern) → decodeWord w = none)

/-! ### A step -/

/-- When the four bytes at `pc` are those of a well-formed instruction, the step is that instruction's
execution and nothing else (00_scope.md R11). -/
def Obligations.StepRunsTheDecodedInstruction : Prop :=
  ∀ (s : State) (i : Instr), WellFormed i → s.fetchBytes = some (insnBytes (encode i)) →
    step s = exec i s

/-- A word stored at `pc` is what the next step fetches and runs, also where its four bytes wrap around
the end of the address space (20_memory.md R40, R41, R44). That they wrap is the model's own choice
(log 4). -/
def Obligations.PlacedWordIsFetchedAndRun : Prop :=
  ∀ (s : State) (w : Insn), s.cfg.WF →
    (s.placeWord w).fetchBytes = some (insnBytes w) ∧
    (∀ i, decodeWord w = some i → step (s.placeWord w) = exec i (s.placeWord w))

/-- A fetched word that satisfies no row of the table is refused, not faulted (30_encoding.md R62). -/
def Obligations.UnassignedWordIsRefused : Prop :=
  ∀ (s : State) (b0 b1 b2 b3 : Byte), s.fetchBytes = some [b0, b1, b2, b3] →
    (∀ r ∈ opcodeTable, wordOfBytes b0 b1 b2 b3 &&& r.mask ≠ r.pattern) →
    step s = .refused (.notAnInstruction s.pc.toNat (wordOfBytes b0 b1 b2 b3))

/-- With a byte of the instruction outside the program the run has ended (70_reset_and_hazards.md R146).
That the model answers this end with a refusal is its own choice (log 4). -/
def Obligations.RunEndsOutsideTheProgram : Prop :=
  ∀ s : State, (∃ k < 4, s.fetchByte k = none) → step s = .refused (.endOfRun s.pc.toNat)

/-- A step's fault is the illegal-instruction one and carries the `pc` and the word fetched there
(60_exceptions.md R120). -/
def Obligations.FaultCarriesPcAndFetchedWord : Prop :=
  ∀ (s : State) (f : Fault), step s = .fault f →
    ∃ b0 b1 b2 b3, s.fetchBytes = some [b0, b1, b2, b3] ∧
      f = .illegalInstruction s.pc.toNat (wordOfBytes b0 b1 b2 b3)

/-! ### What each Zvzip instruction does -/

/-- `vzip.vv` completes on every legal operand combination; active element `i` is `vs2[i/2]` for even
`i` and `vs1[i/2]` for odd `i`, over `EVL = 2*VL` and a destination of `2*LMUL`; every other element,
register and field as the shared rules say (41_vzip.md R90, 40_vector_common.md R73 to R86). -/
def Obligations.VzipInterleavesTheSources : Prop :=
  ∀ (s : State) (st : Setting) (vd vs2 vs1 : RegNum) (vm : Bool),
    s.Inv → Ready s st → LegalVzip vd vs2 vs1 vm st.lmul8 →
    ∃ v', exec (.vzipVV vd vs2 vs1 vm) s =
        .next { s with v := v', vstart := 0, pc := s.pc + 4, draws := s.draws + 1 } ∧
      WritesDestination s v' st.sew vd.toNat (2 * st.lmul8) (2 * s.vl.toNat) vm fun i =>
        if i % 2 = 0 then getVelem s.v vs2.toNat st.sew (i / 2)
        else getVelem s.v vs1.toNat st.sew (i / 2)

/-- `vunzipe.v` completes on every legal operand combination; active element `i` is `vs2[2i]`
(42_vunzip.md R95). -/
def Obligations.VunzipeExtractsEvenElements : Prop :=
  ∀ (s : State) (st : Setting) (vd vs2 : RegNum) (vm : Bool),
    s.Inv → Ready s st → LegalVunzip vd vs2 vm st.lmul8 →
    ∃ v', exec (.vunzipeV vd vs2 vm) s =
        .next { s with v := v', vstart := 0, pc := s.pc + 4, draws := s.draws + 1 } ∧
      WritesDestination s v' st.sew vd.toNat st.lmul8 s.vl.toNat vm fun i =>
        getVelem s.v vs2.toNat st.sew (2 * i)

/-- `vunzipo.v` completes on every legal operand combination; active element `i` is `vs2[2i+1]`
(42_vunzip.md R96). -/
def Obligations.VunzipoExtractsOddElements : Prop :=
  ∀ (s : State) (st : Setting) (vd vs2 : RegNum) (vm : Bool),
    s.Inv → Ready s st → LegalVunzip vd vs2 vm st.lmul8 →
    ∃ v', exec (.vunzipoV vd vs2 vm) s =
        .next { s with v := v', vstart := 0, pc := s.pc + 4, draws := s.draws + 1 } ∧
      WritesDestination s v' st.sew vd.toNat st.lmul8 s.vl.toNat vm fun i =>
        getVelem s.v vs2.toNat st.sew (2 * i + 1)

/-- `vpaire.vv` completes on every legal operand combination, `LMUL = 8` included; active element `i`
is `vs2[i]` for even `i` and `vs1[i-1]` for odd `i` (43_vpair.md R100, 30_encoding.md R64). -/
def Obligations.VpairePairsEvenElements : Prop :=
  ∀ (s : State) (st : Setting) (vd vs2 vs1 : RegNum) (vm : Bool),
    s.Inv → Ready s st → LegalVpair vd vs2 vs1 vm st.lmul8 →
    ∃ v', exec (.vpaireVV vd vs2 vs1 vm) s =
        .next { s with v := v', vstart := 0, pc := s.pc + 4, draws := s.draws + 1 } ∧
      WritesDestination s v' st.sew vd.toNat st.lmul8 s.vl.toNat vm fun i =>
        if i % 2 = 0 then getVelem s.v vs2.toNat st.sew i
        else getVelem s.v vs1.toNat st.sew (i - 1)

/-- `vpairo.vv` completes on every legal operand combination; active element `i` is `vs2[i+1]` for even
`i` and `vs1[i]` for odd `i`, and 0 where that index is not below `VLMAX = LMUL*VLEN/SEW`
(43_vpair.md R101). -/
def Obligations.VpairoPairsOddElements : Prop :=
  ∀ (s : State) (st : Setting) (vd vs2 vs1 : RegNum) (vm : Bool),
    s.Inv → Ready s st → LegalVpair vd vs2 vs1 vm st.lmul8 →
    ∃ v', exec (.vpairoVV vd vs2 vs1 vm) s =
        .next { s with v := v', vstart := 0, pc := s.pc + 4, draws := s.draws + 1 } ∧
      WritesDestination s v' st.sew vd.toNat st.lmul8 s.vl.toNat vm fun i =>
        if st.lmul8 * s.cfg.vlen / (8 * st.sew) ≤ (if i % 2 = 0 then i + 1 else i) then 0
        else if i % 2 = 0 then getVelem s.v vs2.toNat st.sew (i + 1)
        else getVelem s.v vs1.toNat st.sew i

/-- The zero fill of `vpairo.vv` fires in exactly one situation, `VLMAX = 1`, `VL = 1`, element 0, and
then gives 0 (43_vpair.md R101). -/
def Obligations.VpairoZeroFillsOnlyAtVlmaxOne : Prop :=
  ∀ (s : State) (st : Setting) (vd vs2 vs1 : RegNum),
    s.Inv → Ready s st → LegalVpair vd vs2 vs1 true st.lmul8 →
    (∀ k < s.vl.toNat, st.vlmax s.cfg.vlen ≤ (if k % 2 = 0 then k + 1 else k) ↔
      st.vlmax s.cfg.vlen = 1 ∧ s.vl.toNat = 1 ∧ k = 0) ∧
    (st.vlmax s.cfg.vlen = 1 → s.vl.toNat = 1 → s.vstart = 0 →
      ∃ t, exec (.vpairoVV vd vs2 vs1 true) s = .next t ∧ getVelem t.v vd.toNat st.sew 0 = 0)

/-- Prestart elements of the destination keep their value (40_vector_common.md R74). -/
def Obligations.PrestartElementsAreNotWritten : Prop :=
  ∀ (i : Instr) (sh : DestShape) (s t : State) (st : Setting),
    i.destShape = some sh → s.Inv → s.setting = some st → exec i s = .next t →
    ∀ k < max 1 (sh.emulFactor * st.lmul8 / 8) * s.cfg.vlen / st.sew, k < s.vstart.toNat →
      getVelem t.v sh.vd.toNat st.sew k = getVelem s.v sh.vd.toNat st.sew k

/-- Active body elements, `vstart <= k < EVL` with the mask bit set or the instruction unmasked, are
written with the instruction's result on the entry state's register file (40_vector_common.md R75). -/
def Obligations.ActiveElementsHoldTheResult : Prop :=
  ∀ (i : Instr) (sh : DestShape) (s t : State) (st : Setting),
    i.destShape = some sh → s.Inv → s.setting = some st → exec i s = .next t →
    ∀ k, s.vstart.toNat ≤ k → k < sh.evlFactor * s.vl.toNat →
      (sh.vm = true ∨ maskBit s.v k = true) →
      getVelem t.v sh.vd.toNat st.sew k = i.sailResult st.sew (st.vlmax s.cfg.vlen) s.v k

/-- Inactive body elements keep their value under `vma = 0`, and under `vma = 1` hold their old value or
all ones (40_vector_common.md R76). -/
def Obligations.InactiveElementsFollowVma : Prop :=
  ∀ (i : Instr) (sh : DestShape) (s t : State) (st : Setting),
    i.destShape = some sh → s.Inv → s.setting = some st → exec i s = .next t →
    ∀ k < max 1 (sh.emulFactor * st.lmul8 / 8) * s.cfg.vlen / st.sew,
      s.vstart.toNat ≤ k → k < sh.evlFactor * s.vl.toNat → sh.vm = false → maskBit s.v k = false →
      (s.vma = false →
        getVelem t.v sh.vd.toNat st.sew k = getVelem s.v sh.vd.toNat st.sew k) ∧
      (s.vma = true →
        getVelem t.v sh.vd.toNat st.sew k = getVelem s.v sh.vd.toNat st.sew k ∨
          getVelem t.v sh.vd.toNat st.sew k = BitVec.allOnes st.sew)

/-- Tail elements, every index from `EVL` to the end of the destination's registers, keep their value
under `vta = 0`, and under `vta = 1` hold their old value or all ones (40_vector_common.md R78). -/
def Obligations.TailElementsFollowVta : Prop :=
  ∀ (i : Instr) (sh : DestShape) (s t : State) (st : Setting),
    i.destShape = some sh → s.Inv → s.setting = some st → exec i s = .next t →
    ∀ k < max 1 (sh.emulFactor * st.lmul8 / 8) * s.cfg.vlen / st.sew,
      sh.evlFactor * s.vl.toNat ≤ k →
      (s.vta = false →
        getVelem t.v sh.vd.toNat st.sew k = getVelem s.v sh.vd.toNat st.sew k) ∧
      (s.vta = true →
        getVelem t.v sh.vd.toNat st.sew k = getVelem s.v sh.vd.toNat st.sew k ∨
          getVelem t.v sh.vd.toNat st.sew k = BitVec.allOnes st.sew)

/-- With `vstart >= EVL`, `VL = 0` among the cases, a legal Zvzip instruction writes no element, not
even an agnostic tail, and still clears `vstart` and advances `pc` (40_vector_common.md R83,
30_encoding.md R63). -/
def Obligations.EmptyBodyWritesNoElement : Prop :=
  ∀ (i : Instr) (sh : DestShape) (s : State) (st : Setting),
    i.destShape = some sh → s.Inv → Ready s st → i.Legal st.lmul8 →
    sh.evlFactor * s.vl.toNat ≤ s.vstart.toNat →
    exec i s = .next { s with vstart := 0, pc := s.pc + 4, draws := s.draws + 1 }

/-- On the normal path of every instruction `vstart` is 0 and `pc` has advanced by 4 modulo `2^XLEN`; a
fault carries the `pc` the instruction was entered with (40_vector_common.md R84, 10_state.md R31). -/
def Obligations.EndOfInstructionClearsVstartAndAdvancesPc : Prop :=
  ∀ (i : Instr) (s : State),
    (∀ t, exec i s = .next t →
      t.cfg = s.cfg ∧ t.vstart.toNat = 0 ∧ t.pc.toNat = (s.pc.toNat + 4) % 2 ^ s.cfg.xlen) ∧
    (∀ f, exec i s = .fault f → ∃ w, f = .illegalInstruction s.pc.toNat w)

/-- Frame of the five Zvzip instructions: of the whole state only the vector register file, `vstart`,
`pc` and the model's draw counter change; of the register file only the destination group; no byte of
memory (10_state.md R33, 20_memory.md R40). -/
def Obligations.ZvzipFrame : Prop :=
  ∀ (i : Instr) (sh : DestShape) (s t : State),
    i.destShape = some sh → s.Inv → exec i s = .next t →
    ∃ v', t = { s with v := v', vstart := 0, pc := s.pc + 4, draws := s.draws + 1 } ∧
      (∀ st, s.setting = some st → ∀ n < 32,
        ¬ InGroup sh.vd.toNat (sh.emulFactor * st.lmul8) n → vreg v' n = vreg s.v n) ∧
      (∀ a, Memory.read t.mem a = Memory.read s.mem a)

/-! ### When a Zvzip instruction faults -/

/-- A reserved Zvzip instruction faults with its `pc` and word (60_exceptions.md R121,
40_vector_common.md R80, R81). -/
def Obligations.ReservedZvzipFaults : Prop :=
  ∀ (i : Instr) (s : State) (st : Setting),
    i.destShape ≠ none → Ready s st → ¬ i.Legal st.lmul8 →
    exec i s = .fault (.illegalInstruction s.pc.toNat (encode i))

/-- With the vector unit off, or `vill` set, or a non-zero `vstart` where the implementation traps it,
every Zvzip instruction faults, whatever its operands (40_vector_common.md R82 checks 1 to 3,
60_exceptions.md R122). -/
def Obligations.GateFaultsEveryZvzip : Prop :=
  ∀ (i : Instr) (s : State), i.destShape ≠ none →
    (s.vectorEnabled = false ∨ s.vill = true ∨
      (s.cfg.nonzeroVstartTraps = true ∧ s.vstart ≠ 0)) →
    exec i s = .fault (.illegalInstruction s.pc.toNat (encode i))

/-- A Zvzip instruction faults only in the cases of 60_exceptions.md R122. -/
def Obligations.ZvzipFaultsOnlyInTheListedCases : Prop :=
  ∀ (i : Instr) (s : State) (f : Fault), i.destShape ≠ none → exec i s = .fault f →
    s.vectorEnabled = false ∨ s.vill = true ∨
      (s.cfg.nonzeroVstartTraps = true ∧ s.vstart ≠ 0) ∨
      ∃ st, s.setting = some st ∧ ¬ i.Legal st.lmul8

/-- A Zvzip instruction is refused where its `vtype` holds a reserved `vsew` or `vlmul` code with
`vill = 0`, checks 1 and 3 passed; and, legal and in a ready state, where `vl` is above `VLMAX` or an
element is wider than a register. These are the states outside the invariants of 10_state.md R35 in
which the model refuses, its own choice (log 7); in the others (an unsupported setting whose element
fits, `vstart` at or above `VLEN`) the instruction runs. -/
def Obligations.ReservedVtypeCodeLongVlOrWideSewIsRefused : Prop :=
  ∀ (i : Instr) (s : State), i.destShape ≠ none →
    (s.vectorEnabled = true → s.vill = false → (s.cfg.nonzeroVstartTraps = true → s.vstart = 0) →
      (4 ≤ s.vtype.toNat / 8 % 8 ∨ s.vtype.toNat % 8 = 4) →
      exec i s = .refused (.outsideLaunchInvariants s.pc.toNat (encode i))) ∧
    (∀ st : Setting, Ready s st → i.Legal st.lmul8 →
      (st.vlmax s.cfg.vlen < s.vl.toNat ∨ s.cfg.vlen < st.sew) →
      exec i s = .refused (.outsideLaunchInvariants s.pc.toNat (encode i)))

/-! ### Refinement and isolation -/

/-- The snapshot semantics and the source's element-by-element loop agree for every encoding that is not
reserved, in the settings where the loop says everything, undisturbed inactive and tail elements
(40_vector_common.md R85). The model's draw counter advances as in every execution (log 5). -/
def Obligations.SnapshotAgreesWithTheSailLoop : Prop :=
  ∀ (i : Instr) (sh : DestShape) (s : State) (st : Setting),
    i.destShape = some sh → s.Inv → Ready s st → i.Legal st.lmul8 →
    s.vma = false → s.vta = false →
    exec i s = .next
      { s with
        v := sailLoop sh.vd.toNat sh.vm (i.sailResult st.sew (st.vlmax s.cfg.vlen)) s.vstart.toNat
          s.v (sh.evlFactor * s.vl.toNat - s.vstart.toNat)
        vstart := 0, pc := s.pc + 4, draws := s.draws + 1 }

/-- The two unzip instructions invert `vzip.vv`, unmasked, from `vstart = 0`, with the same `vl` and
`vtype` (42_vunzip.md R95); the masked form and a non-zero `vstart` are left out, as R95 leaves them. -/
def Obligations.UnzipsInvertZip : Prop :=
  ∀ (s : State) (st : Setting) (vd va vb ve vo : RegNum),
    s.Inv → Ready s st → s.vstart = 0 → LegalVzip vd va vb true st.lmul8 →
    LegalVunzip ve vd true st.lmul8 → LegalVunzip vo vd true st.lmul8 →
    ∃ t u w, exec (.vzipVV vd va vb true) s = .next t ∧
      exec (.vunzipeV ve vd true) t = .next u ∧ exec (.vunzipoV vo vd true) t = .next w ∧
      ∀ k < s.vl.toNat,
        getVelem u.v ve.toNat st.sew k = getVelem s.v va.toNat st.sew k ∧
        getVelem w.v vo.toNat st.sew k = getVelem s.v vb.toNat st.sew k

/-- A Zvzip instruction reads no vector register but its source groups, its destination group and, if
masked, `v0`: two states that differ in other registers alone complete alike and give the same
destination (10_state.md R33). Both executions have the same free draws, the model's choice (log 5):
R77 lets two executions draw differently. -/
def Obligations.ZvzipReadsOnlyItsOperands : Prop :=
  ∀ (i : Instr) (sh : DestShape) (s : State) (st : Setting) (v' w : VRegs s.cfg.vlen),
    i.destShape = some sh → s.Inv → s.setting = some st →
    (∀ n < 32, (InGroup sh.vd.toNat (sh.emulFactor * st.lmul8) n ∨ (sh.vm = false ∧ n = 0) ∨
      ∃ g ∈ i.sourceGroups st.lmul8, InGroup g.1 g.2 n) → vreg w n = vreg s.v n) →
    exec i s = .next { s with v := v', vstart := 0, pc := s.pc + 4, draws := s.draws + 1 } →
    ∃ w', exec i { s with v := w } =
        .next { s with v := w', vstart := 0, pc := s.pc + 4, draws := s.draws + 1 } ∧
      ∀ n < 32, InGroup sh.vd.toNat (sh.emulFactor * st.lmul8) n → vreg w' n = vreg v' n

/-- A Zvzip instruction reads no integer register, no memory, and neither `vxrm` nor `vxsat`
(10_state.md R28, R30, 20_memory.md R40). Both executions have the same free draws, the model's choice
(log 5). -/
def Obligations.ZvzipIgnoresScalarState : Prop :=
  ∀ (i : Instr) (s : State) (v' : VRegs s.cfg.vlen) (x : XRegs s.cfg.xlen) (m : Memory)
    (rm : BitVec 2) (sat : BitVec 1),
    i.destShape ≠ none →
    exec i s = .next { s with v := v', vstart := 0, pc := s.pc + 4, draws := s.draws + 1 } →
    exec i { s with x := x, mem := m, vxrm := rm, vxsat := sat } =
      .next { s with
        x := x, mem := m, vxrm := rm, vxsat := sat, v := v', vstart := 0, pc := s.pc + 4
        draws := s.draws + 1 }

/-! ### The context instructions -/

/-- `vsetvli` with a granted request and not in the keep form: `vtype` is the request, `vl` is what R112
allows for `x[rs1]` or, with `rs1 = x0`, the largest unsigned value; `x[rd]` is `vl`
(44_context_vset.md R111, R112). Which settings an implementation adds to R6's minimum is a parameter,
held as the list the model's log 9 describes. -/
def Obligations.VsetvliSetsVtypeAndVl : Prop :=
  ∀ (s : State) (st : Setting) (rd rs1 : RegNum) (vtypei : BitVec 11),
    s.cfg.WF → s.vectorEnabled = true →
    RequestGranted s.cfg (vtypei.setWidth s.cfg.xlen) st → (rs1 ≠ 0 ∨ rd ≠ 0) →
    ∃ n, NewVlAllowed (if rs1 = 0 then 2 ^ s.cfg.xlen - 1 else (s.readX rs1).toNat)
        (st.vlmax s.cfg.vlen) n ∧
      exec (.vsetvli rd rs1 vtypei) s = .next
        { s with
          vtype := vtypei.setWidth s.cfg.xlen, vl := BitVec.ofNat s.cfg.xlen n, x := xAfter s rd n
          vstart := 0, pc := s.pc + 4 }

/-- `vsetivli` with a granted request: the requested length is the immediate (44_context_vset.md R111,
R112). -/
def Obligations.VsetivliSetsVtypeAndVl : Prop :=
  ∀ (s : State) (st : Setting) (rd : RegNum) (uimm : BitVec 5) (vtypei : BitVec 11),
    s.cfg.WF → s.vectorEnabled = true →
    RequestGranted s.cfg (vtypei.setWidth s.cfg.xlen) st →
    ∃ n, NewVlAllowed uimm.toNat (st.vlmax s.cfg.vlen) n ∧
      exec (.vsetivli rd uimm vtypei) s = .next
        { s with
          vtype := vtypei.setWidth s.cfg.xlen, vl := BitVec.ofNat s.cfg.xlen n, x := xAfter s rd n
          vstart := 0, pc := s.pc + 4 }

/-- `vsetvl` with a granted request, the value of `x[rs2]`, and not in the keep form
(44_context_vset.md R111, R112). -/
def Obligations.VsetvlSetsVtypeAndVl : Prop :=
  ∀ (s : State) (st : Setting) (rd rs1 rs2 : RegNum),
    s.cfg.WF → s.vectorEnabled = true → RequestGranted s.cfg (s.readX rs2) st →
    (rs1 ≠ 0 ∨ rd ≠ 0) →
    ∃ n, NewVlAllowed (if rs1 = 0 then 2 ^ s.cfg.xlen - 1 else (s.readX rs1).toNat)
        (st.vlmax s.cfg.vlen) n ∧
      exec (.vsetvl rd rs1 rs2) s = .next
        { s with
          vtype := s.readX rs2, vl := BitVec.ofNat s.cfg.xlen n, x := xAfter s rd n
          vstart := 0, pc := s.pc + 4 }

/-- A request that is not granted is no trap: `vtype` becomes `vill` alone, `vl` and `x[rd]` become 0
(44_context_vset.md R111). -/
def Obligations.UngrantedRequestSetsVill : Prop :=
  ∀ (s : State) (rd : RegNum), s.cfg.WF → s.vectorEnabled = true →
    (∀ rs1 vtypei, (∀ st, ¬ RequestGranted s.cfg (vtypei.setWidth s.cfg.xlen) st) →
      exec (.vsetvli rd rs1 vtypei) s = .next
        { s with
          vtype := BitVec.ofNat s.cfg.xlen (2 ^ (s.cfg.xlen - 1)), vl := 0, x := xAfter s rd 0
          vstart := 0, pc := s.pc + 4 }) ∧
    (∀ uimm vtypei, (∀ st, ¬ RequestGranted s.cfg (vtypei.setWidth s.cfg.xlen) st) →
      exec (.vsetivli rd uimm vtypei) s = .next
        { s with
          vtype := BitVec.ofNat s.cfg.xlen (2 ^ (s.cfg.xlen - 1)), vl := 0, x := xAfter s rd 0
          vstart := 0, pc := s.pc + 4 }) ∧
    (∀ rs1 rs2, (∀ st, ¬ RequestGranted s.cfg (s.readX rs2) st) →
      exec (.vsetvl rd rs1 rs2) s = .next
        { s with
          vtype := BitVec.ofNat s.cfg.xlen (2 ^ (s.cfg.xlen - 1)), vl := 0, x := xAfter s rd 0
          vstart := 0, pc := s.pc + 4 })

/-- The keep form, `rd = rs1 = x0`, with a granted request: with `VLMAX` unchanged it writes `vtype` and
keeps `vl`; with another `VLMAX`, or no current one because `vill` is set, it is refused as reserved
(44_context_vset.md R112). That `vill` leaves no current `VLMAX` is the model's inference (log 8). -/
def Obligations.KeepFormKeepsVlOrIsRefused : Prop :=
  ∀ (s : State) (st : Setting), s.Inv → s.vectorEnabled = true →
    (∀ vtypei, RequestGranted s.cfg (vtypei.setWidth s.cfg.xlen) st →
      (∀ old, s.vill = false → s.setting = some old →
        old.vlmax s.cfg.vlen = st.vlmax s.cfg.vlen →
        exec (.vsetvli 0 0 vtypei) s = .next
          { s with vtype := vtypei.setWidth s.cfg.xlen, vstart := 0, pc := s.pc + 4 }) ∧
      ((s.vill = true ∨ ∀ old, s.setting = some old →
          old.vlmax s.cfg.vlen ≠ st.vlmax s.cfg.vlen) →
        exec (.vsetvli 0 0 vtypei) s =
          .refused (.keepVlReserved s.pc.toNat (encode (.vsetvli 0 0 vtypei))))) ∧
    (∀ rs2, RequestGranted s.cfg (s.readX rs2) st →
      (∀ old, s.vill = false → s.setting = some old →
        old.vlmax s.cfg.vlen = st.vlmax s.cfg.vlen →
        exec (.vsetvl 0 0 rs2) s = .next
          { s with vtype := s.readX rs2, vstart := 0, pc := s.pc + 4 }) ∧
      ((s.vill = true ∨ ∀ old, s.setting = some old →
          old.vlmax s.cfg.vlen ≠ st.vlmax s.cfg.vlen) →
        exec (.vsetvl 0 0 rs2) s =
          .refused (.keepVlReserved s.pc.toNat (encode (.vsetvl 0 0 rs2)))))

/-- A context instruction faults exactly when the vector unit is off (44_context_vset.md R111,
60_exceptions.md R128). -/
def Obligations.VsetFaultsExactlyWhenVectorIsOff : Prop :=
  ∀ (i : Instr) (s : State), i.vsetRd ≠ none →
    (s.vectorEnabled = false →
      exec i s = .fault (.illegalInstruction s.pc.toNat (encode i))) ∧
    (s.vectorEnabled = true → ∀ f, exec i s ≠ .fault f)

/-- Frame of the context instructions: only `vtype`, `vl`, the integer registers, `vstart` and `pc`
change; of the integer registers only `x[rd]`, and `x0` still reads 0; no byte of memory and no vector
register (44_context_vset.md R111, R112; 10_state.md R30). -/
def Obligations.VsetFrame : Prop :=
  ∀ (i : Instr) (rd : RegNum) (s t : State), i.vsetRd = some rd → exec i s = .next t →
    ∃ (vt vl : BitVec s.cfg.xlen) (x : XRegs s.cfg.xlen),
      t = { s with vtype := vt, vl := vl, x := x, vstart := 0, pc := s.pc + 4 } ∧
      (∀ n (h : n < 32), n ≠ rd.toNat → x[n] = s.x[n]) ∧ x[0] = s.x[0] ∧ t.readX 0 = 0 ∧
      (∀ n, (t.readX n).toNat = if n = rd ∧ rd ≠ 0 then vl.toNat else (s.readX n).toNat) ∧
      (∀ a, Memory.read t.mem a = Memory.read s.mem a)

/-- A `vsetvli`, `vsetivli` or `vsetvl` whose request is not granted completes, and in the state it
leaves every Zvzip instruction faults (44_context_vset.md R111, 40_vector_common.md R82 check 2). -/
def Obligations.ZvzipFaultsAfterAnUngrantedVset : Prop :=
  ∀ (c : Instr) (s : State) (nv : BitVec s.cfg.xlen),
    s.cfg.WF → s.vectorEnabled = true → c.vtypeRequest s = some nv →
    (∀ st, ¬ RequestGranted s.cfg nv st) →
    ∃ t, exec c s = .next t ∧
      ∀ i : Instr, i.destShape ≠ none →
        exec i t = .fault (.illegalInstruction t.pc.toNat (encode i))

/-! ### The whole machine -/

/-- The invariants hold at reset. The parameters and the values of the registers the spec leaves
unspecified there are the model's choice (logs 1 to 5). -/
def Obligations.ResetSatisfiesTheInvariants : Prop := State.reset.Inv

/-- Every step keeps the invariants: the bounds on the parameters, a consistent `vtype` and `vl`,
`vstart < VLEN`, `x0` holding 0, and the program's canonical form (10_state.md R35). -/
def Obligations.EveryStepKeepsTheInvariants : Prop :=
  ∀ s t : State, s.Inv → step s = .next t → t.Inv

/-- No step writes the parameters, the program, the vector enable, `vxrm` or `vxsat` (20_memory.md R44,
R47; 10_state.md R28, R29). -/
def Obligations.StepKeepsProgramAndParameters : Prop :=
  ∀ s t : State, step s = .next t →
    t.cfg = s.cfg ∧ t.mem = s.mem ∧ t.vectorEnabled = s.vectorEnabled ∧ t.vxrm = s.vxrm ∧
      t.vxsat = s.vxsat

/-- Only a `vset*` changes `vl` or `vtype`, and only a Zvzip instruction changes a vector register
(10_state.md R23, R24, R33). -/
def Obligations.WhoWritesVlVtypeAndVectorRegisters : Prop :=
  ∀ (i : Instr) (s t : State), exec i s = .next t →
    ((t.vl.toNat ≠ s.vl.toNat ∨ t.vtype.toNat ≠ s.vtype.toNat ∨
        ∃ n, (t.readX n).toNat ≠ (s.readX n).toNat) → i.vsetRd ≠ none) ∧
    ((∃ n, (vreg t.v n).toNat ≠ (vreg s.v n).toNat) → i.destShape ≠ none)

/-- The vector CSRs read at their addresses, and a write of `vstart` stores its low `log2(VLEN)` bits
and nothing else (10_state.md R23, R24, R26, R27, R28); with the vector unit off every such read, and
the write, is rejected (R29). That the reads of `vxsat`, `vxrm` and `vcsr` give zeros above their 1, 2
and 3 bits is the model's choice, and no instruction in scope makes such an access (log 17). -/
def Obligations.VectorCsrsAtTheirAddresses : Prop :=
  ∀ s : State, s.cfg.WF →
    (s.vectorEnabled = true →
      s.readCsr 0xC20 = some s.vl ∧ s.readCsr 0xC21 = some s.vtype ∧
      s.readCsr 0xC22 = some (BitVec.ofNat s.cfg.xlen (s.cfg.vlen / 8)) ∧
      s.readCsr 0x008 = some s.vstart ∧ s.readCsr 0x009 = some (s.vxsat.setWidth s.cfg.xlen) ∧
      s.readCsr 0x00A = some (s.vxrm.setWidth s.cfg.xlen) ∧
      s.readCsr 0x00F = some (BitVec.ofNat s.cfg.xlen (2 * s.vxrm.toNat + s.vxsat.toNat)) ∧
      ∀ val : BitVec s.cfg.xlen, s.writeVstart val =
        some { s with vstart := val &&& BitVec.ofNat s.cfg.xlen (s.cfg.vlen - 1) }) ∧
    (s.vectorEnabled = false →
      (∀ a, s.readCsr a = none) ∧ ∀ val, s.writeVstart val = none)
end

