-- ==== Sys2Proof/Laws/Decode.lean ====
section
/-! SUPPORT. The rows of the opcode table do not overlap (30_encoding.md R59), bytes and words convert back and forth, and the decoder's cases. -/

namespace Sys2Proof

/-- Any two rows differ in a bit both of them fix. -/
theorem opcodeTable_pairwise :
    opcodeTable.Pairwise fun a b => (a.pattern ^^^ b.pattern) &&& (a.mask &&& b.mask) ≠ 0 := by
  decide

/-- The bytes of a word give the word back. -/
theorem wordOfBytes_insnBytes (w : Insn) :
    wordOfBytes (w.extractLsb' 0 8) (w.extractLsb' 8 8) (w.extractLsb' 16 8)
      (w.extractLsb' 24 8) = w := by
  apply BitVec.eq_of_getLsbD_eq
  intro k hk
  simp only [wordOfBytes, BitVec.getLsbD_append, BitVec.getLsbD_extractLsb']
  interval_cases k <;> simp

/-- Decoding the bytes of a word is decoding the word. -/
theorem decode_insnBytes (w : Insn) (rest : List Byte) :
    decode (insnBytes w ++ rest) =
      match decodeWord w with
      | some i => .ok i rest
      | none => .notInstruction w := by
  cases hw : decodeWord w <;> simp [insnBytes, decode, wordOfBytes_insnBytes, hw]

/-- A decoded word matches a row of the table, and the instruction is that row's. -/
theorem decodeWord_some {w : Insn} {i : Instr} (h : decodeWord w = some i) :
    ∃ r ∈ opcodeTable, rowMatches w r = true ∧ i = buildInstr r.op w := by
  unfold decodeWord at h
  obtain ⟨r, hr, rfl⟩ := Option.map_eq_some_iff.1 h
  exact ⟨r, List.mem_of_find?_eq_some hr, List.find?_some hr, rfl⟩

/-- A word is refused exactly when it matches no row. -/
theorem decodeWord_none {w : Insn} :
    decodeWord w = none ↔ ∀ r ∈ opcodeTable, rowMatches w r = false := by
  simp [decodeWord, List.find?_eq_none]

/-! ### The bits of an encoding, field by field -/

/-- The bits of the OP-V arithmetic format (30_encoding.md R51). -/
theorem encodeArith_getLsbD (funct6 : BitVec 6) (vm : Bool) (vs2 vs1 : BitVec 5)
    (funct3 : BitVec 3) (vd : BitVec 5) (k : Nat) :
    (encodeArith funct6 vm vs2 vs1 funct3 vd).getLsbD k =
      if k < 7 then (0b1010111#7).getLsbD k
      else if k < 12 then vd.getLsbD (k - 7)
      else if k < 15 then funct3.getLsbD (k - 12)
      else if k < 20 then vs1.getLsbD (k - 15)
      else if k < 25 then vs2.getLsbD (k - 20)
      else if k < 26 then vm
      else funct6.getLsbD (k - 26) := by
  unfold encodeArith
  rw [BitVec.getLsbD_append, BitVec.getLsbD_append, BitVec.getLsbD_append, BitVec.getLsbD_append,
    BitVec.getLsbD_append, BitVec.getLsbD_append]
  simp only [Nat.sub_sub, Nat.reduceAdd]
  repeat' split
  all_goals first
    | rfl
    | omega
    | (have : k = 25 := by omega
       subst this
       simp)

/-- The bits of `vsetvli` (44_context_vset.md R110). -/
theorem encode_vsetvli_getLsbD (rd rs1 : RegNum) (vtypei : BitVec 11) (k : Nat) :
    (encode (.vsetvli rd rs1 vtypei)).getLsbD k =
      if k < 7 then (0b1010111#7).getLsbD k
      else if k < 12 then rd.getLsbD (k - 7)
      else if k < 15 then (0b111#3).getLsbD (k - 12)
      else if k < 20 then rs1.getLsbD (k - 15)
      else if k < 31 then vtypei.getLsbD (k - 20)
      else (0b0#1).getLsbD (k - 31) := by
  unfold encode
  rw [BitVec.getLsbD_append, BitVec.getLsbD_append, BitVec.getLsbD_append, BitVec.getLsbD_append,
    BitVec.getLsbD_append]
  simp only [Nat.sub_sub, Nat.reduceAdd]
  repeat' split
  all_goals first
    | rfl
    | omega

/-- The bits of `vsetivli` (44_context_vset.md R110). -/
theorem encode_vsetivli_getLsbD (rd : RegNum) (uimm : BitVec 5) (vtypei : BitVec 11) (k : Nat) :
    (encode (.vsetivli rd uimm vtypei)).getLsbD k =
      if k < 7 then (0b1010111#7).getLsbD k
      else if k < 12 then rd.getLsbD (k - 7)
      else if k < 15 then (0b111#3).getLsbD (k - 12)
      else if k < 20 then uimm.getLsbD (k - 15)
      else if k < 30 then vtypei.getLsbD (k - 20)
      else (0b11#2).getLsbD (k - 30) := by
  unfold encode
  rw [BitVec.getLsbD_append, BitVec.getLsbD_append, BitVec.getLsbD_append, BitVec.getLsbD_append,
    BitVec.getLsbD_append, BitVec.getLsbD_extractLsb']
  simp only [Nat.sub_sub, Nat.reduceAdd, Nat.zero_add]
  repeat' split
  all_goals first
    | rfl
    | omega
    | (have : k - 20 < 10 := by omega
       simp [this])

/-- The bits of `vsetvl` (44_context_vset.md R110). -/
theorem encode_vsetvl_getLsbD (rd rs1 rs2 : RegNum) (k : Nat) :
    (encode (.vsetvl rd rs1 rs2)).getLsbD k =
      if k < 7 then (0b1010111#7).getLsbD k
      else if k < 12 then rd.getLsbD (k - 7)
      else if k < 15 then (0b111#3).getLsbD (k - 12)
      else if k < 20 then rs1.getLsbD (k - 15)
      else if k < 25 then rs2.getLsbD (k - 20)
      else (0b1000000#7).getLsbD (k - 25) := by
  unfold encode
  rw [BitVec.getLsbD_append, BitVec.getLsbD_append, BitVec.getLsbD_append, BitVec.getLsbD_append,
    BitVec.getLsbD_append]
  simp only [Nat.sub_sub, Nat.reduceAdd]
  repeat' split
  all_goals first
    | rfl
    | omega

end Sys2Proof
end

