-- ==== Sys2Proof/Laws/Elements.lean ====
section
/-! SUPPORT. Reading an element after writing one (40_vector_common.md R72), and what a run of element writes leaves. -/

namespace Sys2Proof.Machine

variable {vlen w : Nat}

theorem replaceBits_getLsbD (r : BitVec vlen) (lo : Nat) (val : BitVec w) (i : Nat) (hi : i < vlen) :
    (replaceBits r lo val).getLsbD i =
      if lo ≤ i ∧ i < lo + w then val.getLsbD (i - lo) else r.getLsbD i := by
  unfold replaceBits
  by_cases h1 : i < lo
  · have : ¬ (lo ≤ i ∧ i < lo + w) := by omega
    simp [this, hi, h1]
  · by_cases h2 : i < lo + w
    · have h3 : i - lo < w := by omega
      have h5 : lo ≤ i ∧ i < lo + w := by omega
      simp [h1, h5, hi, h3]
    · have h3 : ¬ i - lo < w := by omega
      have h5 : ¬ (lo ≤ i ∧ i < lo + w) := by omega
      have h6 : val.getLsbD (i - lo) = false := BitVec.getLsbD_of_ge _ _ (by omega)
      simp [h5, hi, h3, h6]

theorem getVelem_getLsbD (v : VRegs vlen) (base j k : Nat) (hk : k < w) :
    (getVelem v base w j).getLsbD k =
      (vreg v (base + j / (vlen / w))).getLsbD (j % (vlen / w) * w + k) := by
  simp [getVelem, hk]

theorem vreg_setVelem_other (v : VRegs vlen) (base i n : Nat) (val : BitVec w)
    (h : n ≠ base + i / (vlen / w)) : vreg (setVelem v base w i val) n = vreg v n := by
  unfold setVelem vreg
  by_cases hn : n < 32
  · simp [hn, Vector.getElem_setIfInBounds_ne _ (Ne.symm h)]
  · simp [hn]

theorem vreg_setVelem_self (v : VRegs vlen) (base i : Nat) (val : BitVec w)
    (h : base + i / (vlen / w) < 32) :
    vreg (setVelem v base w i val) (base + i / (vlen / w)) =
      replaceBits (vreg v (base + i / (vlen / w))) (i % (vlen / w) * w) val := by
  conv_lhs => unfold setVelem
  rw [vreg, dif_pos h, Vector.getElem_setIfInBounds_self]

/-- An element's last bit lies inside its register. -/
theorem elem_bit_lt (hd : w ∣ vlen) (hw : 0 < w) (hv : 0 < vlen) (j k : Nat) (hk : k < w) :
    j % (vlen / w) * w + k < vlen := by
  obtain ⟨e, rfl⟩ := hd
  have he : 0 < e := by
    rcases Nat.eq_zero_or_pos e with h | h
    · simp [h] at hv
    · exact h
  rw [Nat.mul_div_cancel_left _ hw]
  have h1 : j % e + 1 ≤ e := Nat.mod_lt j he
  calc j % e * w + k < j % e * w + w := by omega
    _ = (j % e + 1) * w := by ring
    _ ≤ e * w := Nat.mul_le_mul_right w h1
    _ = w * e := Nat.mul_comm e w

theorem getVelem_setVelem_same (hd : w ∣ vlen) (hw : 0 < w) (hv : 0 < vlen) (v : VRegs vlen)
    (base i : Nat) (val : BitVec w) (h : base + i / (vlen / w) < 32) :
    getVelem (setVelem v base w i val) base w i = val := by
  apply BitVec.eq_of_getLsbD_eq
  intro k hk
  have hb := elem_bit_lt hd hw hv i k hk
  rw [getVelem_getLsbD _ _ _ _ hk, vreg_setVelem_self _ _ _ _ h, replaceBits_getLsbD _ _ _ _ hb,
    if_pos (by omega)]
  congr 1
  omega

theorem getVelem_setVelem_ne (hd : w ∣ vlen) (hw : 0 < w) (hv : 0 < vlen) (v : VRegs vlen)
    (base i j : Nat) (val : BitVec w) (h : base + i / (vlen / w) < 32) (hij : j ≠ i) :
    getVelem (setVelem v base w i val) base w j = getVelem v base w j := by
  apply BitVec.eq_of_getLsbD_eq
  intro k hk
  rw [getVelem_getLsbD _ _ _ _ hk, getVelem_getLsbD _ _ _ _ hk]
  by_cases hr : j / (vlen / w) = i / (vlen / w)
  · have hb := elem_bit_lt hd hw hv j k hk
    rw [hr, vreg_setVelem_self _ _ _ _ h, replaceBits_getLsbD _ _ _ _ hb, if_neg]
    have hm : j % (vlen / w) ≠ i % (vlen / w) := by
      intro hm
      exact hij (by rw [← Nat.div_add_mod j (vlen / w), ← Nat.div_add_mod i (vlen / w), hr, hm])
    rintro ⟨h1, h2⟩
    rcases Nat.lt_or_gt_of_ne hm with hlt | hgt
    · have := Nat.mul_le_mul_right w (show j % (vlen / w) + 1 ≤ i % (vlen / w) from hlt)
      rw [Nat.add_mul] at this
      omega
    · have := Nat.mul_le_mul_right w (show i % (vlen / w) + 1 ≤ j % (vlen / w) from hgt)
      rw [Nat.add_mul] at this
      omega
  · rw [vreg_setVelem_other _ _ _ _ _ (by omega)]

/-- A write through one group leaves an element of a register outside it alone. -/
theorem getVelem_setVelem_of_reg_ne (v : VRegs vlen) (base i base' w' j : Nat) (val : BitVec w)
    (h : base' + j / (vlen / w') ≠ base + i / (vlen / w)) :
    getVelem (setVelem v base w i val) base' w' j = getVelem v base' w' j := by
  unfold getVelem
  rw [vreg_setVelem_other _ _ _ _ _ h]

/-- Registers no written element lies in are unchanged. -/
theorem vreg_writeElems_other (v : VRegs vlen) (base : Nat) (new : Nat → BitVec w) (n : Nat) :
    ∀ count, (∀ i < count, n ≠ base + i / (vlen / w)) →
      vreg (writeElems v base w new count) n = vreg v n
  | 0, _ => rfl
  | c + 1, h => by
    rw [writeElems, vreg_setVelem_other _ _ _ _ _ (h c (by omega))]
    exact vreg_writeElems_other v base new n c fun i hi => h i (by omega)

/-- Below the count an element holds the new value, from the count on the old one. -/
theorem getVelem_writeElems (hd : w ∣ vlen) (hw : 0 < w) (hv : 0 < vlen) (v : VRegs vlen)
    (base : Nat) (new : Nat → BitVec w) (k : Nat) :
    ∀ count, (∀ i < count, base + i / (vlen / w) < 32) →
      getVelem (writeElems v base w new count) base w k =
        if k < count then new k else getVelem v base w k
  | 0, _ => by simp [writeElems]
  | c + 1, h => by
    have hc := h c (by omega)
    rw [writeElems]
    by_cases hk : k = c
    · subst hk
      rw [getVelem_setVelem_same hd hw hv _ _ _ _ hc, if_pos (by omega)]
    · rw [getVelem_setVelem_ne hd hw hv _ _ _ _ _ hc hk,
        getVelem_writeElems hd hw hv v base new k c fun i hi => h i (by omega)]
      by_cases hlt : k < c
      · rw [if_pos hlt, if_pos (by omega)]
      · rw [if_neg hlt, if_neg (by omega)]

/-- Two register files with the same registers are equal. -/
theorem vregs_ext {v v' : VRegs vlen} (h : ∀ n < 32, vreg v n = vreg v' n) : v = v' := by
  apply Vector.ext
  intro n hn
  have := h n hn
  rwa [vreg, vreg, dif_pos hn, dif_pos hn] at this

end Sys2Proof.Machine
end

