-- ==== Sys2Proof/Laws/Groups.lean ====
section
/-! SUPPORT. The executable checks of 40_vector_common.md R80 and R81 mean what the rules say: alignment, overlap, and the reserved predicates. -/

namespace Sys2Proof.Machine

theorem groupsMeet_iff (r e q f : Nat) :
    groupsMeet r e q f = true ↔ ∃ n, InGroup r e n ∧ InGroup q f n := by
  simp only [groupsMeet, Bool.and_eq_true, decide_eq_true_eq]
  unfold groupSize
  constructor
  · rintro ⟨h1, h2⟩
    exact ⟨max r q, by omega, by omega⟩
  · rintro ⟨n, h1, h2⟩
    omega

theorem masksOverDest_iff (vm : Bool) (vd e : Nat) :
    masksOverDest vm vd e = true ↔ vm = false ∧ InGroup vd e 0 := by
  simp only [masksOverDest, groupsMeet, Bool.and_eq_true, Bool.not_eq_true', decide_eq_true_eq]
  unfold groupSize
  constructor
  · rintro ⟨h, h1, h2⟩
    exact ⟨h, by omega⟩
  · rintro ⟨h, h1⟩
    exact ⟨h, by omega⟩

/-- The group multipliers there are, in eighths (10_state.md R25), and their doubles (R79). -/
abbrev IsLmul8 (lmul8 : Nat) : Prop := lmul8 ∈ [1, 2, 4, 8, 16, 32, 64]

theorem groupAligned_iff (r emul8 : Nat) (h : IsLmul8 emul8 ∨ emul8 = 128) :
    groupAligned r emul8 = true ↔ Aligned r emul8 := by
  simp only [List.mem_cons, List.not_mem_nil, or_false] at h
  rcases h with (h | h | h | h | h | h | h) | h <;> subst h <;>
    simp [groupAligned, groupSize, Nat.mod_one]

/-- An aligned group never runs past `v31` (R80). -/
theorem aligned_group_fits (r : RegNum) (emul8 : Nat) (h : IsLmul8 emul8)
    (ha : Aligned r.toNat emul8) : r.toNat + groupSize emul8 ≤ 32 := by
  have hr : r.toNat < 32 := r.isLt
  simp only [List.mem_cons, List.not_mem_nil, or_false] at h
  rcases h with h | h | h | h | h | h | h <;> subst h <;> simp [groupSize] at ha ⊢ <;> omega

/-- Over groups inside the register file, not meeting is being disjoint. -/
theorem groupsMeet_eq_false_iff (r e q f : Nat) (h : r + groupSize e ≤ 32) :
    groupsMeet r e q f = false ↔ GroupsDisjoint r e q f := by
  rw [← Bool.not_eq_true, groupsMeet_iff]
  unfold groupSize at h
  constructor
  · intro hn n _ hb
    exact hn ⟨n, hb⟩
  · rintro hd ⟨n, h1, h2⟩
    exact hd n (by omega) ⟨h1, h2⟩

theorem illegalVunzip_eq_false_iff (vd vs2 : RegNum) (vm : Bool) (lmul8 : Nat) (h : IsLmul8 lmul8) :
    illegalVunzip vd vs2 vm lmul8 = false ↔ LegalVunzip vd vs2 vm lmul8 := by
  by_cases h64 : lmul8 = 64
  · simp [illegalVunzip, LegalVunzip, h64]
  have h2 : IsLmul8 (2 * lmul8) := by
    simp only [List.mem_cons, List.not_mem_nil, or_false] at h ⊢
    omega
  have hs : illegalVunzip vd vs2 vm lmul8 = false ↔
      groupAligned vd.toNat lmul8 = true ∧ groupAligned vs2.toNat (2 * lmul8) = true ∧
        ¬ (groupsMeet vd.toNat lmul8 vs2.toNat (2 * lmul8) = true ∧ vd ≠ vs2) ∧
        ¬ masksOverDest vm vd.toNat lmul8 = true := by
    simp [illegalVunzip, h64, and_assoc]
  rw [hs, groupAligned_iff _ _ (.inl h), groupAligned_iff _ _ (.inl h2), masksOverDest_iff]
  constructor
  · rintro ⟨a1, a2, a3, a4⟩
    refine ⟨h64, a1, a2, ?_, fun hm hg => a4 ⟨hm, hg⟩⟩
    by_cases he : vd = vs2
    · exact .inr he
    · refine .inl ((groupsMeet_eq_false_iff _ _ _ _ (aligned_group_fits vd _ h a1)).1 ?_)
      simpa using fun hg => a3 ⟨hg, he⟩
  · rintro ⟨_, a1, a2, a3, a4⟩
    refine ⟨a1, a2, ?_, fun hm => a4 hm.1 hm.2⟩
    rintro ⟨hg, he⟩
    rcases a3 with a3 | a3
    · rw [(groupsMeet_eq_false_iff _ _ _ _ (aligned_group_fits vd _ h a1)).2 a3] at hg
      exact absurd hg (by simp)
    · exact he a3

theorem illegalVpair_eq_false_iff (vd vs2 vs1 : RegNum) (vm : Bool) (lmul8 : Nat)
    (h : IsLmul8 lmul8) :
    illegalVpair vd vs2 vs1 vm lmul8 = false ↔ LegalVpair vd vs2 vs1 vm lmul8 := by
  have hs : illegalVpair vd vs2 vs1 vm lmul8 = false ↔
      groupAligned vd.toNat lmul8 = true ∧ groupAligned vs2.toNat lmul8 = true ∧
        groupAligned vs1.toNat lmul8 = true ∧
        groupsMeet vd.toNat lmul8 vs2.toNat lmul8 = false ∧
        groupsMeet vd.toNat lmul8 vs1.toNat lmul8 = false ∧
        ¬ masksOverDest vm vd.toNat lmul8 = true := by
    simp [illegalVpair, and_assoc]
  rw [hs, groupAligned_iff _ _ (.inl h), groupAligned_iff _ _ (.inl h),
    groupAligned_iff _ _ (.inl h), masksOverDest_iff]
  constructor
  · rintro ⟨a1, a2, a3, a4, a5, a6⟩
    have hf := aligned_group_fits vd _ h a1
    exact ⟨a1, a2, a3, (groupsMeet_eq_false_iff _ _ _ _ hf).1 a4,
      (groupsMeet_eq_false_iff _ _ _ _ hf).1 a5, fun hm hg => a6 ⟨hm, hg⟩⟩
  · rintro ⟨a1, a2, a3, a4, a5, a6⟩
    have hf := aligned_group_fits vd _ h a1
    exact ⟨a1, a2, a3, (groupsMeet_eq_false_iff _ _ _ _ hf).2 a4,
      (groupsMeet_eq_false_iff _ _ _ _ hf).2 a5, fun hm => a6 hm.1 hm.2⟩

theorem vzipBadSource_eq_false_iff (vd src lmul8 : Nat) (h : vd + groupSize (2 * lmul8) ≤ 32) :
    vzipBadSource vd src lmul8 = false ↔
      GroupsDisjoint vd (2 * lmul8) src lmul8 ∨ (8 ≤ lmul8 ∧ src = vd + lmul8 / 8) := by
  rw [← groupsMeet_eq_false_iff _ _ _ _ h]
  cases hm : groupsMeet vd (2 * lmul8) src lmul8 <;> simp [vzipBadSource, hm]

theorem illegalVzip_eq_false_iff (vd vs2 vs1 : RegNum) (vm : Bool) (lmul8 : Nat)
    (h : IsLmul8 lmul8) :
    illegalVzip vd vs2 vs1 vm lmul8 = false ↔ LegalVzip vd vs2 vs1 vm lmul8 := by
  by_cases h64 : lmul8 = 64
  · simp [illegalVzip, LegalVzip, h64]
  have h2 : IsLmul8 (2 * lmul8) := by
    simp only [List.mem_cons, List.not_mem_nil, or_false] at h ⊢
    omega
  have hs : illegalVzip vd vs2 vs1 vm lmul8 = false ↔
      groupAligned vd.toNat (2 * lmul8) = true ∧ groupAligned vs2.toNat lmul8 = true ∧
        groupAligned vs1.toNat lmul8 = true ∧ vzipBadSource vd.toNat vs2.toNat lmul8 = false ∧
        vzipBadSource vd.toNat vs1.toNat lmul8 = false ∧
        ¬ masksOverDest vm vd.toNat (2 * lmul8) = true := by
    simp [illegalVzip, h64, and_assoc]
  rw [hs, groupAligned_iff _ _ (.inl h), groupAligned_iff _ _ (.inl h),
    groupAligned_iff _ _ (.inl h2), masksOverDest_iff]
  constructor
  · rintro ⟨a1, a2, a3, a4, a5, a6⟩
    have hf := aligned_group_fits vd _ h2 a1
    exact ⟨h64, a1, a2, a3, (vzipBadSource_eq_false_iff _ _ _ hf).1 a4,
      (vzipBadSource_eq_false_iff _ _ _ hf).1 a5, fun hm hg => a6 ⟨hm, hg⟩⟩
  · rintro ⟨_, a1, a2, a3, a4, a5, a6⟩
    have hf := aligned_group_fits vd _ h2 a1
    exact ⟨a1, a2, a3, (vzipBadSource_eq_false_iff _ _ _ hf).2 a4,
      (vzipBadSource_eq_false_iff _ _ _ hf).2 a5, fun hm => a6 hm.1 hm.2⟩

end Sys2Proof.Machine
end

