-- ==== Sys2Proof/Laws/Memory.lean ====
section
/-! SUPPORT. Reading after writing, and the canonical form, which every memory operation keeps. -/

namespace Sys2Proof.Machine

theorem Memory.read_write_same (m : Memory) (k : Nat) (c : Byte) :
    Memory.read (Memory.write m k c) k = some c := by
  induction m with
  | nil => simp [Memory.write, Memory.read]
  | cons e m ih =>
    obtain ⟨a, b⟩ := e
    by_cases h1 : k < a
    · simp [Memory.write, Memory.read, h1]
    · by_cases h2 : k = a
      · simp [Memory.write, Memory.read, h2]
      · simp [Memory.write, Memory.read, h1, h2, ih]

theorem Memory.read_write_other (m : Memory) (k j : Nat) (c : Byte) (h : j ≠ k) :
    Memory.read (Memory.write m k c) j = Memory.read m j := by
  induction m with
  | nil => simp [Memory.write, Memory.read, h]
  | cons e m ih =>
    obtain ⟨a, b⟩ := e
    by_cases h1 : k < a
    · simp [Memory.write, Memory.read, h1, h]
    · by_cases h2 : k = a
      · subst h2
        simp [Memory.write, Memory.read, h]
      · by_cases h3 : j = a
        · simp [Memory.write, Memory.read, h1, h2, h3]
        · simp [Memory.write, Memory.read, h1, h2, h3, ih]

/-- The canonical form, in terms of the first address and the rest. -/
theorem Memory.wf_cons {a : Nat} {b : Byte} {m : Memory} :
    Memory.wf ((a, b) :: m) = true ↔ (∀ e ∈ m.head?, a < e.1) ∧ Memory.wf m = true := by
  cases m with
  | nil => simp [Memory.wf]
  | cons e m => simp [Memory.wf]

theorem Memory.head_write (m : Memory) (k : Nat) (c : Byte) :
    ∀ e ∈ (Memory.write m k c).head?, e.1 = k ∨ e ∈ m.head? := by
  cases m with
  | nil => simp [Memory.write]
  | cons e m =>
    obtain ⟨a, b⟩ := e
    by_cases h1 : k < a
    · simp [Memory.write, h1]
    · by_cases h2 : k = a
      · simp [Memory.write, h2]
      · simp [Memory.write, h1, h2]

theorem Memory.wf_write (m : Memory) (k : Nat) (c : Byte) (h : Memory.wf m = true) :
    Memory.wf (Memory.write m k c) = true := by
  induction m with
  | nil => simp [Memory.write, Memory.wf]
  | cons e m ih =>
    obtain ⟨a, b⟩ := e
    rw [Memory.wf_cons] at h
    by_cases h1 : k < a
    · simp only [Memory.write, h1, if_true]
      rw [Memory.wf_cons, Memory.wf_cons]
      exact ⟨by simpa using h1, h⟩
    · by_cases h2 : k = a
      · subst h2
        simp only [Memory.write, h1, if_true, if_false]
        rw [Memory.wf_cons]
        exact h
      · simp only [Memory.write, h1, h2, if_false]
        rw [Memory.wf_cons]
        refine ⟨fun e he => ?_, ih h.2⟩
        rcases Memory.head_write m k c e he with h3 | h3
        · omega
        · exact h.1 e h3

theorem Memory.wf_writeBytes {xlen : Nat} (bs : List Byte) :
    ∀ (m : Memory) (a : BitVec xlen), Memory.wf m = true →
      Memory.wf (Memory.writeBytes m a bs) = true := by
  induction bs with
  | nil => exact fun m a h => h
  | cons b bs ih => exact fun m a h => ih _ _ (Memory.wf_write m a.toNat b h)

theorem Memory.wf_reset : Memory.wf State.reset.mem = true := rfl

theorem Memory.mem_write (m : Memory) (k : Nat) (c : Byte) :
    ∀ e ∈ Memory.write m k c, e = (k, c) ∨ e ∈ m := by
  induction m with
  | nil => simp [Memory.write]
  | cons e m ih =>
    obtain ⟨a, b⟩ := e
    intro e he
    by_cases h1 : k < a
    · simpa [Memory.write, h1] using he
    · by_cases h2 : k = a
      · have : e = (k, c) ∨ e ∈ m := by simpa [Memory.write, h2] using he
        exact this.imp_right (List.mem_cons_of_mem _)
      · have : e = (a, b) ∨ e ∈ Memory.write m k c := by simpa [Memory.write, h1, h2] using he
        rcases this with h3 | h3
        · exact .inr (by simp [h3])
        · exact (ih e h3).imp_right (List.mem_cons_of_mem _)

end Sys2Proof.Machine
end

