-- ==== Sys2Proof/Laws/PerInstr.lean ====
section
/-! SUPPORT. Statements for all instructions, one lemma per constructor. Family OpV: every encoding has the major opcode OP-V in its low seven bits (30_encoding.md R51, R52; 44_context_vset.md R110). -/

namespace Sys2Proof

/-- The word's bits 6:0 are `0b1010111`. -/
def Laws.OpV.Statement (i : Instr) : Prop := (encode i).extractLsb' 0 7 = 0b1010111#7

/-- The low part of a concatenation. -/
theorem Laws.OpV.low_append {n : Nat} (x : BitVec n) (y : BitVec 7) :
    (x ++ y).extractLsb' 0 7 = y := by
  apply BitVec.eq_of_getLsbD_eq
  intro k hk
  simp [BitVec.getLsbD_append, hk]

theorem Laws.OpV.vzipVV (vd vs2 vs1 : RegNum) (vm : Bool) :
    Laws.OpV.Statement (.vzipVV vd vs2 vs1 vm) := Laws.OpV.low_append _ _

theorem Laws.OpV.vunzipeV (vd vs2 : RegNum) (vm : Bool) :
    Laws.OpV.Statement (.vunzipeV vd vs2 vm) := Laws.OpV.low_append _ _

theorem Laws.OpV.vunzipoV (vd vs2 : RegNum) (vm : Bool) :
    Laws.OpV.Statement (.vunzipoV vd vs2 vm) := Laws.OpV.low_append _ _

theorem Laws.OpV.vpaireVV (vd vs2 vs1 : RegNum) (vm : Bool) :
    Laws.OpV.Statement (.vpaireVV vd vs2 vs1 vm) := Laws.OpV.low_append _ _

theorem Laws.OpV.vpairoVV (vd vs2 vs1 : RegNum) (vm : Bool) :
    Laws.OpV.Statement (.vpairoVV vd vs2 vs1 vm) := Laws.OpV.low_append _ _

theorem Laws.OpV.vsetvli (rd rs1 : RegNum) (vtypei : BitVec 11) :
    Laws.OpV.Statement (.vsetvli rd rs1 vtypei) := Laws.OpV.low_append _ _

theorem Laws.OpV.vsetivli (rd : RegNum) (uimm : BitVec 5) (vtypei : BitVec 11) :
    Laws.OpV.Statement (.vsetivli rd uimm vtypei) := Laws.OpV.low_append _ _

theorem Laws.OpV.vsetvl (rd rs1 rs2 : RegNum) :
    Laws.OpV.Statement (.vsetvl rd rs1 rs2) := Laws.OpV.low_append _ _

end Sys2Proof
end

