-- ==== Sys2Proof/Laws/Settings.lean ====
section
/-! SUPPORT. What a decoded setting can be, and how elements, groups and VLMAX fit together (10_state.md R25, 00_scope.md R7, 40_vector_common.md R72, R73). -/

namespace Sys2Proof.Machine

/-- The element widths of R25. -/
abbrev IsSew (sew : Nat) : Prop := sew ∈ [8, 16, 32, 64]

theorem sewOf_isSew (c : BitVec 3) : ∀ n, sewOf c = some n → IsSew n := by
  have : ∀ c : BitVec 3, ∀ n ∈ sewOf c, IsSew n := by decide
  exact this c

theorem lmul8Of_isLmul8 (c : BitVec 3) : ∀ n, lmul8Of c = some n → IsLmul8 n := by
  have : ∀ c : BitVec 3, ∀ n ∈ lmul8Of c, IsLmul8 n := by decide
  exact this c

/-- A decoded setting holds a width and a multiplier of R25's tables. -/
theorem settingOf_valid {a b : BitVec 3} {st : Setting} (h : settingOf a b = some st) :
    IsSew st.sew ∧ IsLmul8 st.lmul8 := by
  unfold settingOf at h
  split at h
  · rename_i sew lmul8 h1 h2
    cases h
    exact ⟨sewOf_isSew a _ h1, lmul8Of_isLmul8 b _ h2⟩
  · cases h

theorem setting_valid {s : State} {st : Setting} (h : s.setting = some st) :
    IsSew st.sew ∧ IsLmul8 st.lmul8 := settingOf_valid h

/-- A granted request: no reserved bit is set, and the codes are those of a supported setting. -/
theorem requestedSetting_some {c : Config} {xlen : Nat} {nv : BitVec xlen} {st : Setting} :
    requestedSetting c nv = some st ↔
      hasReservedBits nv = false ∧ settingOf (vsewOf nv) (vlmulOf nv) = some st ∧
        settingSupported c (vsewOf nv) (vlmulOf nv) st = true := by
  unfold requestedSetting
  cases hasReservedBits nv with
  | true => simp
  | false =>
    cases hs : settingOf (vsewOf nv) (vlmulOf nv) with
    | none => simp
    | some st' =>
      simp only [Bool.false_eq_true, if_false, Option.ite_none_right_eq_some, Option.some.injEq,
        true_and]
      constructor
      · rintro ⟨hp, rfl⟩
        exact ⟨rfl, hp⟩
      · rintro ⟨rfl, hp⟩
        exact ⟨hp, rfl⟩

theorem settingSupported_sew_le {c : Config} {a b : BitVec 3} {st : Setting}
    (h : settingSupported c a b st = true) : st.sew ≤ c.elen := by
  simp only [settingSupported, Bool.and_eq_true, decide_eq_true_eq] at h
  exact h.1

theorem vlen_pos {c : Config} (h : c.WF) : 0 < c.vlen := by
  have h1 := h.2.1
  simp only [Config.vlenValues, List.mem_cons, List.not_mem_nil, or_false] at h1
  omega

theorem isSew_pos {sew : Nat} (h : IsSew sew) : 0 < sew := by
  simp only [List.mem_cons, List.not_mem_nil, or_false] at h
  omega

/-- An element width that fits in a register divides it. -/
theorem sew_dvd_vlen {c : Config} (h : c.WF) {sew : Nat} (hs : IsSew sew) (hle : sew ≤ c.vlen) :
    sew ∣ c.vlen := by
  have h1 := h.2.1
  simp only [Config.vlenValues, List.mem_cons, List.not_mem_nil, or_false] at h1 hs
  rcases hs with hs | hs | hs | hs <;> subst hs <;>
    rcases h1 with h1 | h1 | h1 | h1 | h1 | h1 | h1 | h1 | h1 | h1 | h1 | h1 <;>
      rw [h1] at hle ⊢ <;> omega

/-- The capacity of a group is its size times the elements of one register. -/
theorem groupCapacity_eq {vlen sew : Nat} (hd : sew ∣ vlen) (emul8 : Nat) :
    groupCapacity vlen sew emul8 = groupSize emul8 * (vlen / sew) :=
  Nat.mul_div_assoc _ hd

/-- An element below the capacity lies in a register of the group. -/
theorem elem_reg_lt {vlen sew : Nat} (hd : sew ∣ vlen) (hw : 0 < sew) (hv : 0 < vlen) (emul8 k : Nat)
    (h : k < groupCapacity vlen sew emul8) : k / (vlen / sew) < groupSize emul8 := by
  rw [groupCapacity_eq hd] at h
  exact (Nat.div_lt_iff_lt_mul (Nat.div_pos (Nat.le_of_dvd hv hd) hw)).2 h

/-- A group multiplier is at most its group's size, and so is its double. -/
theorem lmul8_le_groupSize {lmul8 : Nat} (h : IsLmul8 lmul8) (f : Nat) (hf : f = 1 ∨ f = 2) :
    f * lmul8 ≤ 8 * groupSize (f * lmul8) := by
  unfold groupSize
  simp only [List.mem_cons, List.not_mem_nil, or_false] at h
  rcases hf with rfl | rfl <;> rcases h with h | h | h | h | h | h | h <;> subst h <;> decide

/-- `VLMAX` elements fit in a group at `LMUL`, and twice as many at `2*LMUL`. -/
theorem vlmax_le_capacity {vlen : Nat} {st : Setting} (h : IsLmul8 st.lmul8) (f : Nat)
    (hf : f = 1 ∨ f = 2) : f * st.vlmax vlen ≤ groupCapacity vlen st.sew (f * st.lmul8) := by
  unfold Setting.vlmax groupCapacity
  calc f * (st.lmul8 * vlen / (8 * st.sew)) ≤ f * (st.lmul8 * vlen) / (8 * st.sew) :=
        Nat.mul_div_le_mul_div_assoc _ _ _
    _ = f * st.lmul8 * vlen / (8 * st.sew) := by rw [Nat.mul_assoc]
    _ ≤ 8 * groupSize (f * st.lmul8) * vlen / (8 * st.sew) :=
        Nat.div_le_div_right (Nat.mul_le_mul_right _ (lmul8_le_groupSize h f hf))
    _ = groupSize (f * st.lmul8) * vlen / st.sew := by
        rw [Nat.mul_assoc, Nat.mul_div_mul_left _ _ (by decide)]

/-! ### What the invariants give a ready state -/

/-- In a ready state that satisfies the invariants, the current `vtype` is a granted request. -/
theorem Ready.requested {s : State} {st : Setting} (hr : Ready s st) (hi : s.Inv) :
    requestedSetting s.cfg s.vtype = some st ∧ s.vl.toNat ≤ st.vlmax s.cfg.vlen := by
  have h := hi.vtype.2 hr.2.1
  cases hq : requestedSetting s.cfg s.vtype with
  | none => simp [hq] at h
  | some st' =>
    rw [hq] at h
    have h1 := (requestedSetting_some.1 hq).2.1
    have h2 : s.setting = some st := hr.2.2.2
    have : st' = st := by
      unfold State.setting at h2
      rw [h1] at h2
      exact Option.some.inj h2
    subst this
    exact ⟨rfl, h⟩

theorem Ready.sew_le {s : State} {st : Setting} (hr : Ready s st) (hi : s.Inv) :
    st.sew ≤ s.cfg.vlen :=
  (settingSupported_sew_le (requestedSetting_some.1 (hr.requested hi).1).2.2).trans hi.cfg.2.2.2

theorem Ready.inside {s : State} {st : Setting} (hr : Ready s st) (hi : s.Inv) :
    insideLaunchInvariants s st = true := by
  simp [insideLaunchInvariants, (hr.requested hi).2, hr.sew_le hi]

theorem Ready.sew_dvd {s : State} {st : Setting} (hr : Ready s st) (hi : s.Inv) :
    st.sew ∣ s.cfg.vlen :=
  sew_dvd_vlen hi.cfg (setting_valid hr.2.2.2).1 (hr.sew_le hi)

/-! ### A granted request in the words of the rules -/

/-- No bit outside `[7:0]` is set (44_context_vset.md R111). -/
theorem hasReservedBits_false_iff {xlen : Nat} (nv : BitVec xlen) :
    hasReservedBits nv = false ↔ nv.toNat < 256 := by
  unfold hasReservedBits
  rw [bne_eq_false_iff_eq, ← BitVec.toNat_inj]
  simp [BitVec.toNat_ushiftRight, Nat.shiftRight_eq_div_pow, Nat.div_eq_zero_iff]

theorem vsewOf_eq {xlen : Nat} (nv : BitVec xlen) : vsewOf nv = BitVec.ofNat 3 (nv.toNat / 8) := by
  apply BitVec.eq_of_toNat_eq
  simp [vsewOf, BitVec.extractLsb'_toNat, Nat.shiftRight_eq_div_pow]

theorem vlmulOf_eq {xlen : Nat} (nv : BitVec xlen) : vlmulOf nv = BitVec.ofNat 3 nv.toNat := by
  apply BitVec.eq_of_toNat_eq
  simp [vlmulOf, BitVec.extractLsb'_toNat]

/-- R25's table of `SEW`. -/
theorem sewOf_iff (c : BitVec 3) (n : Nat) :
    sewOf c = some n ↔ (c.toNat, n) ∈ [(0, 8), (1, 16), (2, 32), (3, 64)] := by
  have h : ∀ c : BitVec 3, sewOf c = 
      if c.toNat = 0 then some 8 else
      if c.toNat = 1 then some 16 else
      if c.toNat = 2 then some 32 else
      if c.toNat = 3 then some 64 else none := by decide
  rw [h]
  simp only [List.mem_cons, List.not_mem_nil, or_false, Prod.mk.injEq]
  generalize c.toNat = m
  repeat' split
  all_goals simp_all
  all_goals omega

/-- R25's table of `LMUL`, in eighths. -/
theorem lmul8Of_iff (c : BitVec 3) (n : Nat) :
    lmul8Of c = some n ↔
      (c.toNat, n) ∈ [(0, 8), (1, 16), (2, 32), (3, 64), (5, 1), (6, 2), (7, 4)] := by
  have h : ∀ c : BitVec 3, lmul8Of c = 
      if c.toNat = 0 then some 8 else
      if c.toNat = 1 then some 16 else
      if c.toNat = 2 then some 32 else
      if c.toNat = 3 then some 64 else
      if c.toNat = 5 then some 1 else
      if c.toNat = 6 then some 2 else
      if c.toNat = 7 then some 4 else none := by decide
  rw [h]
  simp only [List.mem_cons, List.not_mem_nil, or_false, Prod.mk.injEq]
  generalize c.toNat = m
  repeat' split
  all_goals simp_all
  all_goals omega

theorem settingOf_iff (a b : BitVec 3) (st : Setting) :
    settingOf a b = some st ↔ sewOf a = some st.sew ∧ lmul8Of b = some st.lmul8 := by
  unfold settingOf
  cases sewOf a <;> cases lmul8Of b <;> simp
  constructor
  · rintro rfl; simp
  · rintro ⟨h1, h2⟩; cases st; simp_all

/-- `requestedSetting` answers exactly the setting a granted request asks for. -/
theorem requestGranted_iff (c : Config) {xlen : Nat} (nv : BitVec xlen) (st : Setting) :
    RequestGranted c nv st ↔ requestedSetting c nv = some st := by
  rw [requestedSetting_some, hasReservedBits_false_iff, settingOf_iff, sewOf_iff, lmul8Of_iff,
    vsewOf_eq, vlmulOf_eq]
  simp only [settingSupported, BitVec.toNat_ofNat, Bool.and_eq_true, Bool.or_eq_true,
    decide_eq_true_eq, List.contains_iff_mem, Nat.reducePow]
  tauto

theorem requestedSetting_none {c : Config} {xlen : Nat} {nv : BitVec xlen}
    (h : ∀ st, ¬ RequestGranted c nv st) : requestedSetting c nv = none := by
  cases hq : requestedSetting c nv with
  | none => rfl
  | some st => exact absurd ((requestGranted_iff c nv st).2 hq) (h st)

end Sys2Proof.Machine
end

