-- ==== Sys2Proof/Laws/State.lean ====
section
/-! SUPPORT. What each update of the state leaves in each field, and the register file of the integer registers after a write. -/

namespace Sys2Proof.Machine

section Retire
variable (s : State) (v' : VRegs s.cfg.vlen)

@[simp] theorem retire_cfg : (retire s v').cfg = s.cfg := rfl
@[simp] theorem retire_v : (retire s v').v = v' := rfl
@[simp] theorem retire_vl : (retire s v').vl = s.vl := rfl
@[simp] theorem retire_vtype : (retire s v').vtype = s.vtype := rfl
@[simp] theorem retire_vstart : (retire s v').vstart = 0 := rfl
@[simp] theorem retire_vxrm : (retire s v').vxrm = s.vxrm := rfl
@[simp] theorem retire_vxsat : (retire s v').vxsat = s.vxsat := rfl
@[simp] theorem retire_vectorEnabled : (retire s v').vectorEnabled = s.vectorEnabled := rfl
@[simp] theorem retire_x : (retire s v').x = s.x := rfl
@[simp] theorem retire_pc : (retire s v').pc = s.nextPc := rfl
@[simp] theorem retire_mem : (retire s v').mem = s.mem := rfl
@[simp] theorem retire_draws : (retire s v').draws = s.draws + 1 := rfl
@[simp] theorem retire_vill : (retire s v').vill = s.vill := rfl
@[simp] theorem retire_setting : (retire s v').setting = s.setting := rfl

end Retire

section SetVl
variable (s : State) (rd : RegNum) (vt : BitVec s.cfg.xlen) (n : Nat)

@[simp] theorem setVl_cfg : (setVl s rd vt n).cfg = s.cfg := rfl
@[simp] theorem setVl_v : (setVl s rd vt n).v = s.v := rfl
@[simp] theorem setVl_vl : (setVl s rd vt n).vl = BitVec.ofNat s.cfg.xlen n := rfl
@[simp] theorem setVl_vtype : (setVl s rd vt n).vtype = vt := rfl
@[simp] theorem setVl_vstart : (setVl s rd vt n).vstart = 0 := rfl
@[simp] theorem setVl_vxrm : (setVl s rd vt n).vxrm = s.vxrm := rfl
@[simp] theorem setVl_vxsat : (setVl s rd vt n).vxsat = s.vxsat := rfl
@[simp] theorem setVl_vectorEnabled : (setVl s rd vt n).vectorEnabled = s.vectorEnabled := rfl
@[simp] theorem setVl_x : (setVl s rd vt n).x = s.writeX rd (BitVec.ofNat s.cfg.xlen n) := rfl
@[simp] theorem setVl_pc : (setVl s rd vt n).pc = s.nextPc := rfl
@[simp] theorem setVl_mem : (setVl s rd vt n).mem = s.mem := rfl
@[simp] theorem setVl_draws : (setVl s rd vt n).draws = s.draws := rfl

end SetVl

section PlaceWord
variable (s : State) (w : Insn)

@[simp] theorem placeWord_cfg : (s.placeWord w).cfg = s.cfg := rfl
@[simp] theorem placeWord_v : (s.placeWord w).v = s.v := rfl
@[simp] theorem placeWord_vl : (s.placeWord w).vl = s.vl := rfl
@[simp] theorem placeWord_vtype : (s.placeWord w).vtype = s.vtype := rfl
@[simp] theorem placeWord_vstart : (s.placeWord w).vstart = s.vstart := rfl
@[simp] theorem placeWord_vxrm : (s.placeWord w).vxrm = s.vxrm := rfl
@[simp] theorem placeWord_vxsat : (s.placeWord w).vxsat = s.vxsat := rfl
@[simp] theorem placeWord_vectorEnabled : (s.placeWord w).vectorEnabled = s.vectorEnabled := rfl
@[simp] theorem placeWord_x : (s.placeWord w).x = s.x := rfl
@[simp] theorem placeWord_pc : (s.placeWord w).pc = s.pc := rfl
@[simp] theorem placeWord_draws : (s.placeWord w).draws = s.draws := rfl
@[simp] theorem placeWord_mem :
    (s.placeWord w).mem = Memory.writeBytes s.mem s.pc (insnBytes w) := rfl

end PlaceWord

section SetVstart
variable (s : State) (val : BitVec s.cfg.xlen)

@[simp] theorem setVstart_cfg : (s.setVstart val).cfg = s.cfg := rfl
@[simp] theorem setVstart_v : (s.setVstart val).v = s.v := rfl
@[simp] theorem setVstart_vl : (s.setVstart val).vl = s.vl := rfl
@[simp] theorem setVstart_vtype : (s.setVstart val).vtype = s.vtype := rfl
@[simp] theorem setVstart_vstart :
    (s.setVstart val).vstart = BitVec.ofNat s.cfg.xlen (val.toNat % s.cfg.vlen) := rfl
@[simp] theorem setVstart_vxrm : (s.setVstart val).vxrm = s.vxrm := rfl
@[simp] theorem setVstart_vxsat : (s.setVstart val).vxsat = s.vxsat := rfl
@[simp] theorem setVstart_vectorEnabled :
    (s.setVstart val).vectorEnabled = s.vectorEnabled := rfl
@[simp] theorem setVstart_x : (s.setVstart val).x = s.x := rfl
@[simp] theorem setVstart_pc : (s.setVstart val).pc = s.pc := rfl
@[simp] theorem setVstart_mem : (s.setVstart val).mem = s.mem := rfl
@[simp] theorem setVstart_draws : (s.setVstart val).draws = s.draws := rfl

end SetVstart

/-- Everything a CSR write of `vstart` can do (10_state.md R26, R29). -/
theorem writeVstart_eq (s : State) (val : BitVec s.cfg.xlen) :
    s.writeVstart val = if s.vectorEnabled = true then some (s.setVstart val) else none := rfl

/-! ### Integer registers -/

@[simp] theorem readX_zero (s : State) : s.readX 0#5 = 0 := by simp [State.readX]

@[simp] theorem writeX_zero (s : State) (val : BitVec s.cfg.xlen) : s.writeX 0#5 val = s.x := by
  simp [State.writeX]

theorem writeX_self (s : State) (rd : RegNum) (val : BitVec s.cfg.xlen) (h : rd ≠ 0) :
    (s.writeX rd val)[rd.toNat]'rd.isLt = val := by
  simp only [State.writeX, if_neg h, Vector.getElem_set_self]

theorem writeX_other (s : State) (rd : RegNum) (val : BitVec s.cfg.xlen) (n : Nat) (hn : n < 32)
    (h : n ≠ rd.toNat) : (s.writeX rd val)[n] = s.x[n] := by
  unfold State.writeX
  split
  · rfl
  · exact Vector.getElem_set_ne _ _ (Ne.symm h)

/-- `x0`'s place in the register file is never written. -/
theorem writeX_place_zero (s : State) (rd : RegNum) (val : BitVec s.cfg.xlen) :
    (s.writeX rd val)[0] = s.x[0] := by
  by_cases h : rd = 0
  · subst h
    exact congrArg (·[0]) (writeX_zero s val)
  · apply writeX_other
    intro h0
    exact h (BitVec.eq_of_toNat_eq (by simpa using h0.symm))

end Sys2Proof.Machine
end

