-- ==== Sys2Proof/Laws/Template.lean ====
section
/-! SUPPORT. Everything the shared template of the Zvzip instructions can do: when it completes and with which state, when it faults, and what it writes. -/

namespace Sys2Proof.Machine

/-- In a ready state the gate runs the body. -/
theorem vectorGate_ready {s : State} {st : Setting} (h : Ready s st) (i : Instr)
    (body : Setting → Host.Outcome State Fault Refusal) : vectorGate i s body = body st := by
  obtain ⟨h1, h2, h3, h4⟩ := h
  have h5 : (s.cfg.nonzeroVstartTraps && s.vstart != 0) = false := by
    cases hn : s.cfg.nonzeroVstartTraps with
    | false => rfl
    | true => simp [h3 hn]
  simp only [vectorGate, h1, h2, h5, h4]
  rfl

/-- All the gate can do. -/
theorem vectorGate_cases (i : Instr) (s : State)
    (body : Setting → Host.Outcome State Fault Refusal) :
    (vectorGate i s body = raiseIllegal i s ∧
        (s.vectorEnabled = false ∨ s.vill = true ∨
          (s.cfg.nonzeroVstartTraps = true ∧ s.vstart ≠ 0))) ∨
      (∃ st, Ready s st ∧ vectorGate i s body = body st) ∨
      (s.setting = none ∧
        vectorGate i s body = .refused (.outsideLaunchInvariants s.pc.toNat (encode i))) := by
  cases h1 : s.vectorEnabled with
  | false => exact .inl ⟨by simp [vectorGate, h1], .inl rfl⟩
  | true =>
    cases h2 : s.vill with
    | true => exact .inl ⟨by simp [vectorGate, h1, h2], .inr (.inl rfl)⟩
    | false =>
      by_cases h3 : s.cfg.nonzeroVstartTraps = true ∧ s.vstart ≠ 0
      · refine .inl ⟨?_, .inr (.inr h3)⟩
        have h5 : (s.cfg.nonzeroVstartTraps && s.vstart != 0) = true := by
          rw [h3.1, Bool.true_and, bne_iff_ne]
          exact h3.2
        simp only [vectorGate, h1, h2, h5]
        rfl
      · have h3' : s.cfg.nonzeroVstartTraps = true → s.vstart = 0 := fun a =>
          Decidable.byContradiction fun b => h3 ⟨a, b⟩
        cases h4 : s.setting with
        | some st =>
          have hr : Ready s st := ⟨h1, h2, h3', h4⟩
          exact .inr (.inl ⟨st, hr, vectorGate_ready hr i body⟩)
        | none =>
          refine .inr (.inr ⟨rfl, ?_⟩)
          have h5 : (s.cfg.nonzeroVstartTraps && s.vstart != 0) = false := by
            cases hn : s.cfg.nonzeroVstartTraps with
            | false => rfl
            | true => simp [h3' hn]
          simp only [vectorGate, h1, h2, h5, h4]
          rfl

section
variable (i : Instr) (illegal : Setting → Bool) (s : State)
  (plan : (st : Setting) → Plan s.cfg.vlen st.sew)

/-- A legal instruction in a ready state inside the invariants completes. -/
theorem execZvzip_legal {st : Setting} (hr : Ready s st) (hl : illegal st = false)
    (hi : insideLaunchInvariants s st = true) :
    execZvzip i illegal s plan = .next (retire s (destination s (plan st))) := by
  rw [execZvzip, vectorGate_ready hr, hl, hi]
  rfl

/-- A reserved instruction in a ready state faults. -/
theorem execZvzip_illegal {st : Setting} (hr : Ready s st) (hl : illegal st = true) :
    execZvzip i illegal s plan = raiseIllegal i s := by
  rw [execZvzip, vectorGate_ready hr, hl]
  rfl

/-- All the template can do: complete, fault, or refuse outside the invariants. -/
theorem execZvzip_cases :
    (∃ st, Ready s st ∧ illegal st = false ∧ insideLaunchInvariants s st = true ∧
        execZvzip i illegal s plan = .next (retire s (destination s (plan st)))) ∨
      execZvzip i illegal s plan = raiseIllegal i s ∨
      execZvzip i illegal s plan =
        .refused (.outsideLaunchInvariants s.pc.toNat (encode i)) := by
  rcases vectorGate_cases i s (fun st =>
    if illegal st then raiseIllegal i s
    else if insideLaunchInvariants s st then .next (retire s (destination s (plan st)))
    else .refused (.outsideLaunchInvariants s.pc.toNat (encode i))) with h | ⟨st, hr, h⟩ | h
  · exact .inr (.inl h.1)
  · cases hl : illegal st with
    | true => exact .inr (.inl (execZvzip_illegal i illegal s plan hr hl))
    | false =>
      cases hi : insideLaunchInvariants s st with
      | true => exact .inl ⟨st, hr, hl, hi, execZvzip_legal i illegal s plan hr hl hi⟩
      | false => exact .inr (.inr (by rw [execZvzip, h, hl, hi]; rfl))
  · exact .inr (.inr h.2)

/-- If the template answers a next state, the instruction was legal and only the destination, `vstart`,
`pc` and the draw counter changed. -/
theorem execZvzip_next {t : State} (h : execZvzip i illegal s plan = .next t) :
    ∃ st, Ready s st ∧ illegal st = false ∧ insideLaunchInvariants s st = true ∧
      t = retire s (destination s (plan st)) := by
  rcases execZvzip_cases i illegal s plan with ⟨st, h1, h2, h3, h4⟩ | h1 | h1
  · rw [h4] at h
    exact ⟨st, h1, h2, h3, (Host.Outcome.next.inj h).symm⟩
  · rw [h1] at h
    cases h
  · rw [h1] at h
    cases h

/-- The only fault is the illegal-instruction one, with the current `pc` and the instruction's word. -/
theorem execZvzip_fault {f : Fault} (h : execZvzip i illegal s plan = .fault f) :
    f = .illegalInstruction s.pc.toNat (encode i) := by
  rcases execZvzip_cases i illegal s plan with ⟨st, _, _, _, h4⟩ | h1 | h1
  · rw [h4] at h
    cases h
  · rw [h1] at h
    exact (Host.Outcome.fault.inj h).symm
  · rw [h1] at h
    cases h

end

/-- An element under a policy keeps its value or, if the policy is agnostic, becomes all ones. -/
theorem policyElem_cases {w : Nat} (agnostic drawsOnes : Bool) (old : BitVec w) :
    policyElem agnostic drawsOnes old = old ∨
      (agnostic = true ∧ policyElem agnostic drawsOnes old = BitVec.allOnes w) := by
  cases agnostic <;> cases drawsOnes <;> simp [policyElem]

/-- What the template writes is what R73 to R78 and R83 say, for a destination group inside the
register file. -/
theorem destination_writes (s : State) {sew : Nat} (p : Plan s.cfg.vlen sew) (hd : sew ∣ s.cfg.vlen)
    (hw : 0 < sew) (hv : 0 < s.cfg.vlen) (hf : p.vd + groupSize p.destEmul8 ≤ 32) :
    WritesDestination s (destination s p) sew p.vd p.destEmul8 p.evl p.vm (p.result s.v) := by
  have hin : ∀ i < groupCapacity s.cfg.vlen sew p.destEmul8, p.vd + i / (s.cfg.vlen / sew) < 32 :=
    fun i hi => by
      have := elem_reg_lt hd hw hv _ _ hi
      generalize i / (s.cfg.vlen / sew) = q at this ⊢
      omega
  refine ⟨fun n _ hg => ?_, fun he => ?_, fun he k hk => ?_⟩
  · unfold destination
    split
    · refine vreg_writeElems_other _ _ _ _ _ fun i hi => ?_
      have := elem_reg_lt hd hw hv _ _ hi
      unfold groupSize at this
      generalize i / (s.cfg.vlen / sew) = q at this ⊢
      omega
    · rfl
  · rw [destination, if_neg (by omega)]
  · have hk' : k < groupCapacity s.cfg.vlen sew p.destEmul8 := hk
    rw [destination, if_pos he, getVelem_writeElems hd hw hv _ _ _ _ _ hin, if_pos hk', newElem]
    refine ⟨fun h1 => if_pos h1, fun h1 h2 h3 => ?_, fun h1 h2 h3 h4 => ?_, fun h1 => ?_⟩
    · have h4 : (p.vm || maskBit s.v k) = true := by simpa using h3
      rw [if_neg (by omega), if_pos h2, if_pos h4]
    · have h5 : ¬ (p.vm || maskBit s.v k) = true := by simp [h3, h4]
      rw [if_neg (by omega), if_pos h2, if_neg h5]
      exact policyElem_cases _ _ _
    · rw [if_neg (by omega), if_neg (by omega)]
      exact policyElem_cases _ _ _

end Sys2Proof.Machine
end

