-- ==== Sys2Proof/Laws/Vset.lean ====
section
/-! SUPPORT. Everything a `vset*` can do (44_context_vset.md R111, R112), and the bits of the `vtype` values it writes. -/

namespace Sys2Proof.Machine

section
variable (i : Instr) (rd : RegNum) (avl : Avl) (s : State) (nv : BitVec s.cfg.xlen)

/-- A request that is not granted sets `vill`. -/
theorem execVset_unsupported (he : s.vectorEnabled = true)
    (hq : requestedSetting s.cfg nv = none) :
    execVset i rd avl s nv = .next (setVl s rd (villValue s.cfg.xlen) 0) := by
  simp [execVset, he, hq]

/-- A granted request with a requested length. -/
theorem execVset_value (he : s.vectorEnabled = true) {st : Setting}
    (hq : requestedSetting s.cfg nv = some st) (n : Nat) :
    execVset i rd (.value n) s nv =
      .next (setVl s rd (vtypeFrom nv) (newVl n (st.vlmax s.cfg.vlen))) := by
  simp [execVset, he, hq]

/-- A granted request in the keep form. -/
theorem execVset_keep (he : s.vectorEnabled = true) {st : Setting}
    (hq : requestedSetting s.cfg nv = some st) :
    execVset i rd .keepVl s nv =
      if s.currentVlmax = some (st.vlmax s.cfg.vlen) then
        .next (setVl s rd (vtypeFrom nv) (newVl s.vl.toNat (st.vlmax s.cfg.vlen)))
      else .refused (.keepVlReserved s.pc.toNat (encode i)) := by
  simp [execVset, he, hq]

/-- If a `vset*` answers a next state, it has set `vill` or granted the request. -/
theorem execVset_next {t : State} (h : execVset i rd avl s nv = .next t) :
    s.vectorEnabled = true ∧
      ((requestedSetting s.cfg nv = none ∧ t = setVl s rd (villValue s.cfg.xlen) 0) ∨
        ∃ st n, requestedSetting s.cfg nv = some st ∧
          (avl = .value n ∨
            (avl = .keepVl ∧ n = s.vl.toNat ∧ s.currentVlmax = some (st.vlmax s.cfg.vlen))) ∧
          t = setVl s rd (vtypeFrom nv) (newVl n (st.vlmax s.cfg.vlen))) := by
  cases he : s.vectorEnabled with
  | false =>
    rw [execVset, he] at h
    cases h
  | true =>
    refine ⟨rfl, ?_⟩
    cases hq : requestedSetting s.cfg nv with
    | none =>
      rw [execVset_unsupported i rd avl s nv he hq] at h
      exact .inl ⟨rfl, (Host.Outcome.next.inj h).symm⟩
    | some st =>
      refine .inr ?_
      cases avl with
      | value n =>
        rw [execVset_value i rd s nv he hq n] at h
        exact ⟨st, n, rfl, .inl rfl, (Host.Outcome.next.inj h).symm⟩
      | keepVl =>
        rw [execVset_keep i rd s nv he hq] at h
        split at h
        · rename_i hc
          exact ⟨st, s.vl.toNat, rfl, .inr ⟨rfl, rfl, hc⟩, (Host.Outcome.next.inj h).symm⟩
        · cases h

/-- The only fault of a `vset*` is the illegal-instruction one, with the vector unit off. -/
theorem execVset_fault {f : Fault} (h : execVset i rd avl s nv = .fault f) :
    s.vectorEnabled = false ∧ f = .illegalInstruction s.pc.toNat (encode i) := by
  cases he : s.vectorEnabled with
  | false =>
    rw [execVset, he] at h
    exact ⟨rfl, (Host.Outcome.fault.inj h).symm⟩
  | true =>
    cases hq : requestedSetting s.cfg nv with
    | none =>
      rw [execVset_unsupported i rd avl s nv he hq] at h
      cases h
    | some st =>
      cases avl with
      | value n =>
        rw [execVset_value i rd s nv he hq n] at h
        cases h
      | keepVl =>
        rw [execVset_keep i rd s nv he hq] at h
        split at h <;> cases h

end

/-! ### The bits of a written `vtype` -/

theorem villValue_getLsbD {xlen : Nat} (h : 0 < xlen) (k : Nat) :
    (villValue xlen).getLsbD k = decide (k = xlen - 1) := by
  simp only [villValue, BitVec.getLsbD_twoPow]
  by_cases hk : k = xlen - 1
  · simp [hk, h]
  · simp [hk, Ne.symm hk]

theorem vtypeFrom_getLsbD {xlen : Nat} (h : 8 ≤ xlen) (nv : BitVec xlen) (k : Nat) :
    (vtypeFrom nv).getLsbD k = (decide (k < 8) && nv.getLsbD k) := by
  simp only [vtypeFrom, BitVec.getLsbD_setWidth, BitVec.getLsbD_extractLsb', Nat.zero_add]
  by_cases hk : k < 8
  · have : k < xlen := by omega
    simp [hk, this]
  · simp [hk]

/-- A request with no reserved bit set is written as it stands. -/
theorem vtypeFrom_of_noReserved {xlen : Nat} (h : 8 ≤ xlen) (nv : BitVec xlen)
    (hr : hasReservedBits nv = false) : vtypeFrom nv = nv := by
  apply BitVec.eq_of_getLsbD_eq
  intro k hk
  rw [vtypeFrom_getLsbD h]
  by_cases h8 : k < 8
  · simp [h8]
  · have h0 : nv >>> 8 = 0 := by simpa [hasReservedBits] using hr
    have : (nv >>> 8).getLsbD (k - 8) = false := by rw [h0]; simp
    rw [BitVec.getLsbD_ushiftRight, show 8 + (k - 8) = k by omega] at this
    simp [h8, this]

/-! ### The operands of a `vset*` -/

/-- The AVL of `vsetvli` and `vsetvl` outside the keep form (44_context_vset.md R112). -/
theorem avlOf_value (s : State) (rd rs1 : RegNum) (h : rs1 ≠ 0 ∨ rd ≠ 0) :
    s.avlOf rd rs1 =
      .value (if rs1 = 0 then 2 ^ s.cfg.xlen - 1 else (s.readX rs1).toNat) := by
  unfold State.avlOf
  by_cases h1 : rs1 = 0
  · have h2 : rd ≠ 0 := h.resolve_left fun h => h h1
    rw [if_neg (by simpa using h1), if_pos (by simpa using h2), if_pos h1]
  · rw [if_pos (by simpa using h1), if_neg h1]

/-- The new `vl` is one R112 allows. -/
theorem newVl_allowed (avl vlmax : Nat) : NewVlAllowed avl vlmax (newVl avl vlmax) := by
  unfold NewVlAllowed newVl vlPolicy halfUp
  refine ⟨fun h => by simp [h], fun h1 h2 => by rw [if_neg (by omega), if_pos h2],
    fun h1 h2 => ?_⟩
  rw [if_neg (by omega), if_neg (by omega)]
  have := Nat.mod_lt (Config.vlChoice avl vlmax) (y := vlmax + 1 - (avl + 1) / 2) (by omega)
  omega

/-- `vill` alone, as a number. -/
theorem villValue_eq (xlen : Nat) : villValue xlen = BitVec.ofNat xlen (2 ^ (xlen - 1)) := by
  apply BitVec.eq_of_toNat_eq
  rw [villValue, BitVec.toNat_twoPow, BitVec.toNat_ofNat]

end Sys2Proof.Machine
end

