-- ==== Sys2Proof/Laws/Step.lean ====
section
/-! SUPPORT. All a step can do, and all `exec` can do, one case per shared operation. -/

namespace Sys2Proof.Machine

/-- All a step can do: end the run, refuse the word, or run the decoded instruction. -/
theorem step_cases (s : State) :
    (s.fetchBytes = none ∧ step s = .refused (.endOfRun s.pc.toNat)) ∨
      ∃ b0 b1 b2 b3, s.fetchBytes = some [b0, b1, b2, b3] ∧
        ((decodeWord (wordOfBytes b0 b1 b2 b3) = none ∧
            step s = .refused (.notAnInstruction s.pc.toNat (wordOfBytes b0 b1 b2 b3))) ∨
          ∃ i, decodeWord (wordOfBytes b0 b1 b2 b3) = some i ∧ step s = exec i s) := by
  cases hf : s.fetchBytes with
  | none => exact .inl ⟨rfl, by simp [step, hf]⟩
  | some bytes =>
    refine .inr ?_
    have hb : ∃ b0 b1 b2 b3, bytes = [b0, b1, b2, b3] := by
      unfold State.fetchBytes at hf
      split at hf
      · exact ⟨_, _, _, _, (Option.some.inj hf).symm⟩
      · cases hf
    obtain ⟨b0, b1, b2, b3, rfl⟩ := hb
    refine ⟨b0, b1, b2, b3, rfl, ?_⟩
    cases hd : decodeWord (wordOfBytes b0 b1 b2 b3) with
    | none => exact .inl ⟨rfl, by simp [step, hf, decode, hd]⟩
    | some i => exact .inr ⟨i, rfl, by simp [step, hf, decode, hd]⟩

/-- A step that answers a next state runs an instruction. -/
theorem step_next {s t : State} (h : step s = .next t) : ∃ i, exec i s = .next t := by
  rcases step_cases s with ⟨_, h1⟩ | ⟨_, _, _, _, _, ⟨_, h1⟩ | ⟨i, _, h1⟩⟩
  · rw [h1] at h; cases h
  · rw [h1] at h; cases h
  · exact ⟨i, h1 ▸ h⟩

/-- All `exec` can do when it answers a next state: a Zvzip instruction retires with some register
file, or a `vset*` sets `vtype` and `vl`. -/
theorem exec_next {i : Instr} {s t : State} (h : exec i s = .next t) :
    (∃ v', t = retire s v') ∨
      ∃ rd, (t = setVl s rd (villValue s.cfg.xlen) 0) ∨
        ∃ (nv : BitVec s.cfg.xlen) (st : Setting) (n : Nat),
          requestedSetting s.cfg nv = some st ∧
            t = setVl s rd (vtypeFrom nv) (newVl n (st.vlmax s.cfg.vlen)) := by
  have hz : ∀ {j : Instr} {ill : Setting → Bool} {plan : (st : Setting) → Plan s.cfg.vlen st.sew},
      execZvzip j ill s plan = .next t → ∃ v', t = retire s v' := fun h => by
    obtain ⟨st, _, _, _, h4⟩ := execZvzip_next _ _ _ _ h
    exact ⟨_, h4⟩
  have hv : ∀ {j : Instr} {rd : RegNum} {avl : Avl} {nv : BitVec s.cfg.xlen},
      execVset j rd avl s nv = .next t →
        ∃ rd, (t = setVl s rd (villValue s.cfg.xlen) 0) ∨
          ∃ (nv : BitVec s.cfg.xlen) (st : Setting) (n : Nat),
            requestedSetting s.cfg nv = some st ∧
              t = setVl s rd (vtypeFrom nv) (newVl n (st.vlmax s.cfg.vlen)) := fun {j rd avl nv} h => by
    obtain ⟨_, ⟨_, h2⟩ | ⟨st, n, h1, _, h3⟩⟩ := execVset_next _ _ _ _ _ h
    · exact ⟨rd, .inl h2⟩
    · exact ⟨rd, .inr ⟨nv, st, n, h1, h3⟩⟩
  cases i with
  | vzipVV vd vs2 vs1 vm => exact .inl (hz h)
  | vunzipeV vd vs2 vm => exact .inl (hz h)
  | vunzipoV vd vs2 vm => exact .inl (hz h)
  | vpaireVV vd vs2 vs1 vm => exact .inl (hz h)
  | vpairoVV vd vs2 vs1 vm => exact .inl (hz h)
  | vsetvli rd rs1 vtypei => exact .inr (hv h)
  | vsetivli rd uimm vtypei =>
    exact .inr (hv (j := .vsetivli rd uimm vtypei) (avl := .value uimm.toNat)
      (nv := vtypei.setWidth s.cfg.xlen) h)
  | vsetvl rd rs1 rs2 => exact .inr (hv h)

/-- The one fault of `exec` carries the current `pc` and the instruction's word. -/
theorem exec_fault {i : Instr} {s : State} {f : Fault} (h : exec i s = .fault f) :
    f = .illegalInstruction s.pc.toNat (encode i) := by
  cases i with
  | vzipVV vd vs2 vs1 vm => exact execZvzip_fault _ _ _ _ h
  | vunzipeV vd vs2 vm => exact execZvzip_fault _ _ _ _ h
  | vunzipoV vd vs2 vm => exact execZvzip_fault _ _ _ _ h
  | vpaireVV vd vs2 vs1 vm => exact execZvzip_fault _ _ _ _ h
  | vpairoVV vd vs2 vs1 vm => exact execZvzip_fault _ _ _ _ h
  | vsetvli rd rs1 vtypei => exact (execVset_fault _ _ _ _ _ h).2
  | vsetivli rd uimm vtypei =>
    exact (execVset_fault (.vsetivli rd uimm vtypei) rd (.value uimm.toNat) s
      (vtypei.setWidth s.cfg.xlen) h).2
  | vsetvl rd rs1 rs2 => exact (execVset_fault _ _ _ _ _ h).2

/-- `exec` of `vsetivli` is the shared operation. -/
theorem exec_vsetivli (s : State) (rd : RegNum) (uimm : BitVec 5) (vtypei : BitVec 11) :
    exec (.vsetivli rd uimm vtypei) s =
      execVset (.vsetivli rd uimm vtypei) rd (.value uimm.toNat) s
        (vtypei.setWidth s.cfg.xlen) := rfl

/-- `exec` of a context instruction is the shared operation. -/
theorem exec_vset {i : Instr} {rd : RegNum} (h : i.vsetRd = some rd) (s : State) :
    ∃ avl nv, exec i s = execVset i rd avl s nv := by
  cases i with
  | vsetvli _ _ _ => cases h; exact ⟨_, _, rfl⟩
  | vsetivli rd uimm vtypei => cases h; exact ⟨_, _, exec_vsetivli s rd uimm vtypei⟩
  | vsetvl _ _ _ => cases h; exact ⟨_, _, rfl⟩
  | vzipVV _ _ _ _ => cases h
  | vunzipeV _ _ _ => cases h
  | vunzipoV _ _ _ => cases h
  | vpaireVV _ _ _ _ => cases h
  | vpairoVV _ _ _ _ => cases h

end Sys2Proof.Machine
end

