-- ==== Sys2Proof/Laws/Zvzip.lean ====
section
/-! SUPPORT. The five Zvzip instructions as one: each is the shared template at its own destination, legality and result, so that a fact about all five is proved once. -/

namespace Sys2Proof.Machine

theorem Ready.isLmul8 {s : State} {st : Setting} (h : Ready s st) : IsLmul8 st.lmul8 :=
  (setting_valid h.2.2.2).2

theorem Ready.isSew {s : State} {st : Setting} (h : Ready s st) : IsSew st.sew :=
  (setting_valid h.2.2.2).1

/-- The plan is the one of R79's row and of the instruction's result function. -/
def PlanMatches (i : Instr) (sh : DestShape) (s : State) (st : Setting)
    (p : Plan s.cfg.vlen st.sew) : Prop :=
  p.vd = sh.vd.toNat ∧ p.vm = sh.vm ∧ p.evl = sh.evlFactor * s.vl.toNat ∧
    p.destEmul8 = sh.emulFactor * st.lmul8 ∧
    p.result = i.sailResult st.sew (st.vlmax s.cfg.vlen)

theorem resultVpairo_eq_sail {vlen : Nat} (vd vs2 vs1 : RegNum) (vm : Bool) (sew vlmax : Nat) :
    (resultVpairo vs2 vs1 sew vlmax : VRegs vlen → Nat → BitVec sew) =
      (Instr.vpairoVV vd vs2 vs1 vm).sailResult sew vlmax := by
  funext v k
  unfold resultVpairo vpairoIndex Instr.sailResult
  by_cases h : k % 2 = 0 <;> simp [h]

/-- `exec` of a Zvzip instruction is the template, whose check is the instruction's legality. -/
theorem exec_zvzip {i : Instr} {sh : DestShape} (h : i.destShape = some sh) (s : State) :
    ∃ (ill : Setting → Bool) (plan : (st : Setting) → Plan s.cfg.vlen st.sew),
      exec i s = execZvzip i ill s plan ∧
        (∀ st, IsLmul8 st.lmul8 → (ill st = false ↔ i.Legal st.lmul8)) ∧
        ∀ st, PlanMatches i sh s st (plan st) := by
  cases i with
  | vzipVV vd vs2 vs1 vm =>
    cases h
    exact ⟨_, _, rfl, fun st hl => illegalVzip_eq_false_iff vd vs2 vs1 vm _ hl,
      fun st => ⟨rfl, rfl, rfl, rfl, rfl⟩⟩
  | vunzipeV vd vs2 vm =>
    cases h
    exact ⟨_, _, rfl, fun st hl => illegalVunzip_eq_false_iff vd vs2 vm _ hl,
      fun st => ⟨rfl, rfl, (Nat.one_mul _).symm, (Nat.one_mul _).symm, rfl⟩⟩
  | vunzipoV vd vs2 vm =>
    cases h
    exact ⟨_, _, rfl, fun st hl => illegalVunzip_eq_false_iff vd vs2 vm _ hl,
      fun st => ⟨rfl, rfl, (Nat.one_mul _).symm, (Nat.one_mul _).symm, rfl⟩⟩
  | vpaireVV vd vs2 vs1 vm =>
    cases h
    exact ⟨_, _, rfl, fun st hl => illegalVpair_eq_false_iff vd vs2 vs1 vm _ hl,
      fun st => ⟨rfl, rfl, (Nat.one_mul _).symm, (Nat.one_mul _).symm, rfl⟩⟩
  | vpairoVV vd vs2 vs1 vm =>
    cases h
    exact ⟨_, _, rfl, fun st hl => illegalVpair_eq_false_iff vd vs2 vs1 vm _ hl,
      fun st => ⟨rfl, rfl, (Nat.one_mul _).symm, (Nat.one_mul _).symm,
        resultVpairo_eq_sail vd vs2 vs1 vm _ _⟩⟩
  | vsetvli rd rs1 vtypei => cases h
  | vsetivli rd uimm vtypei => cases h
  | vsetvl rd rs1 rs2 => cases h

/-- The destination group of a legal instruction lies inside the register file. -/
theorem legal_dest_fits {i : Instr} {sh : DestShape} (h : i.destShape = some sh) {lmul8 : Nat}
    (hm : IsLmul8 lmul8) (hl : i.Legal lmul8) :
    sh.vd.toNat + groupSize (sh.emulFactor * lmul8) ≤ 32 := by
  have h2 : lmul8 ≠ 64 → IsLmul8 (2 * lmul8) := fun h64 => by
    simp only [List.mem_cons, List.not_mem_nil, or_false] at hm ⊢
    omega
  cases i with
  | vzipVV vd vs2 vs1 vm => cases h; exact aligned_group_fits vd _ (h2 hl.1) hl.2.1
  | vunzipeV vd vs2 vm => cases h; rw [Nat.one_mul]; exact aligned_group_fits vd _ hm hl.2.1
  | vunzipoV vd vs2 vm => cases h; rw [Nat.one_mul]; exact aligned_group_fits vd _ hm hl.2.1
  | vpaireVV vd vs2 vs1 vm => cases h; rw [Nat.one_mul]; exact aligned_group_fits vd _ hm hl.1
  | vpairoVV vd vs2 vs1 vm => cases h; rw [Nat.one_mul]; exact aligned_group_fits vd _ hm hl.1
  | vsetvli rd rs1 vtypei => cases h
  | vsetivli rd uimm vtypei => cases h
  | vsetvl rd rs1 rs2 => cases h

/-- If a Zvzip instruction answers a next state, it was legal in a ready state, and the state after is
the retired one with some destination, as R73 to R78 and R83 say. -/
theorem exec_zvzip_next {i : Instr} {sh : DestShape} (h : i.destShape = some sh) {s t : State}
    (hi : s.Inv) (hn : exec i s = .next t) :
    ∃ st v', Ready s st ∧ i.Legal st.lmul8 ∧ t = retire s v' ∧
      WritesDestination s v' st.sew sh.vd.toNat (sh.emulFactor * st.lmul8)
        (sh.evlFactor * s.vl.toNat) sh.vm (i.sailResult st.sew (st.vlmax s.cfg.vlen) s.v) := by
  obtain ⟨ill, plan, h1, h2, h3⟩ := exec_zvzip h s
  rw [h1] at hn
  obtain ⟨st, hr, hl, _, ht⟩ := execZvzip_next i ill s plan hn
  have hL := (h2 st hr.isLmul8).1 hl
  obtain ⟨e1, e2, e3, e4, e5⟩ := h3 st
  refine ⟨st, _, hr, hL, ht, ?_⟩
  have hw := destination_writes s (plan st) (hr.sew_dvd hi) (isSew_pos hr.isSew) (vlen_pos hi.cfg)
    (by rw [e1, e4]; exact legal_dest_fits h hr.isLmul8 hL)
  rwa [e1, e2, e3, e4, e5] at hw

end Sys2Proof.Machine
end

