-- ==== Sys2Proof/Tests/Slice0.lean ====
section
/-! SUPPORT. Small tests: decoding of words written out from the encodings, the ill-formed term, expected results copied from 95_test_vectors.md, and for each obligation with hypotheses a witness that meets them. -/

namespace Sys2Proof.Tests

open Sys2Proof.Machine

/-! ### Small states -/

/-- The number a list of `w`-bit elements spells, element 0 least significant. -/
def packed (w : Nat) : List Nat → Nat
  | [] => 0
  | e :: es => e + 2 ^ w * packed w es

/-- The register file with the given registers, the others 0. -/
def regFile (vlen : Nat) (rs : List (Nat × Nat)) : VRegs vlen :=
  rs.foldl (fun v r => v.setIfInBounds r.1 (BitVec.ofNat vlen r.2)) (Vector.replicate 32 0)

/-- A launch state of an implementation. -/
def launch (c : Config) (vtype vl vstart : Nat) (rs xs : List (Nat × Nat)) : State where
  cfg := c
  v := regFile c.vlen rs
  vl := BitVec.ofNat c.xlen vl
  vtype := BitVec.ofNat c.xlen vtype
  vstart := BitVec.ofNat c.xlen vstart
  vxrm := 0
  vxsat := 0
  vectorEnabled := true
  x := regFile c.xlen xs
  pc := BitVec.ofNat c.xlen 0x1000
  mem := []
  draws := 0

/-- `VLEN = 128`, the reset state's parameters; `v1`, `v2`, `v4` to `v7` hold 32-bit elements as the
start states of 95_test_vectors.md section 2 do, and `v0` the given mask. -/
def demo (vtype vl vstart mask : Nat) : State :=
  launch resetConfig vtype vl vstart
    [(0, mask), (1, packed 32 [0x10, 0x11, 0x12, 0x13]), (2, packed 32 [0x20, 0x21, 0x22, 0x23]),
      (4, packed 32 [0xA0, 0xA1, 0xA2, 0xA3]), (5, packed 32 [0xB0, 0xB1, 0xB2, 0xB3]),
      (6, packed 32 [0xC0, 0xC1, 0xC2, 0xC3]), (7, packed 32 [0xD0, 0xD1, 0xD2, 0xD3])] []

/-- `VLEN = 32`, `ELEN = 32`. -/
def tinyConfig : Config := { resetConfig with vlen := 32, elen := 32 }

/-- `VLEN = 128`, `ELEN = 32`. -/
def elen32Config : Config := { resetConfig with elen := 32 }

/-- The next state's elements. -/
def elems (o : Host.Outcome State Fault Refusal) (base w count : Nat) : List Nat :=
  match o with
  | .next t => (List.range count).map fun k => (getVelem t.v base w k).toNat
  | .fault _ => []
  | .refused _ => []

/-- `vtype`, `vl`, `x5` and `vstart` of the next state. -/
def settings (o : Host.Outcome State Fault Refusal) : List Nat :=
  match o with
  | .next t => [t.vtype.toNat, t.vl.toNat, (t.readX 5).toNat, t.vstart.toNat]
  | .fault _ => []
  | .refused _ => []

/-- Whether there is a next state. -/
def isNext (o : Host.Outcome State Fault Refusal) : Bool :=
  match o with
  | .next _ => true
  | .fault _ => false
  | .refused _ => false

/-- The fault, if it is one. -/
def faultOf (o : Host.Outcome State Fault Refusal) : Option Fault :=
  match o with
  | .next _ => none
  | .fault f => some f
  | .refused _ => none

/-- The refusal, if it is one. -/
def refusalOf (o : Host.Outcome State Fault Refusal) : Option Refusal :=
  match o with
  | .next _ => none
  | .fault _ => none
  | .refused r => some r

/-- One step with the word at `pc`. -/
def runWord (s : State) (w : Nat) : Host.Outcome State Fault Refusal :=
  step (s.withFetchWord 32 w)

theorem exists_next {o : Host.Outcome State Fault Refusal} (h : isNext o = true) :
    ∃ t, o = .next t := by
  cases o with
  | next t => exact ⟨t, rfl⟩
  | fault _ => cases h
  | refused _ => cases h

/-- The invariants of a state with `vill = 0`, as one decidable condition. -/
theorem inv_of (s : State)
    (h : s.cfg.WF ∧ s.vill = false ∧
      (requestedSetting s.cfg s.vtype).any (fun st => decide (s.vl.toNat ≤ st.vlmax s.cfg.vlen)) =
        true ∧
      s.vstart.toNat < s.cfg.vlen ∧ s.x[0] = 0 ∧ Memory.wf s.mem = true ∧
      ∀ c ∈ s.mem, c.1 < 2 ^ s.cfg.xlen) : s.Inv := by
  obtain ⟨h1, h2, h3, h4, h5, h6, h7⟩ := h
  refine ⟨h1, ⟨fun hv => ?_, fun _ => ?_⟩, h4, h5, h6, h7⟩
  · rw [h2] at hv
    cases hv
  · cases hr : requestedSetting s.cfg s.vtype with
    | none => simp [hr] at h3
    | some st => simpa [hr] using h3

/-! ### Syntax and decoding -/

/-- The one ill-formed shape: a `vsetivli` whose immediate has bit 10 set (44_context_vset.md R110). -/
theorem test_illFormed_vsetivli : ¬ WellFormed (.vsetivli 5 3 0x400) := by decide

/-- The words of 95_test_vectors.md sections 2.1 to 2.5, one or two per row of the table. -/
theorem test_decode_words :
    decodeWord 0xFA20A257 = some (.vzipVV 4 2 1 true) ∧
    decodeWord 0xF820A257 = some (.vzipVV 4 2 1 false) ∧
    decodeWord 0x4A45A357 = some (.vunzipeV 6 4 true) ∧
    decodeWord 0x4847A3D7 = some (.vunzipoV 7 4 false) ∧
    decodeWord 0x3E1102D7 = some (.vpaireVV 5 1 2 true) ∧
    decodeWord 0x3C112357 = some (.vpairoVV 6 1 2 false) ∧
    decodeWord 0x0D0072D7 = some (.vsetvli 5 0 0xD0) ∧
    decodeWord 0xC42FF057 = some (.vsetivli 0 31 0x42) ∧
    decodeWord 0x80B572D7 = some (.vsetvl 5 10 11) := by decide

/-- Bit by bit, `0x3E1102D7` as 95_test_vectors.md section 1.4 spells it. -/
theorem test_decode_bits :
    decodeTableWord 32 0b00111110000100010000001011010111 = some (.vpaireVV 5 1 2 true) := by decide

/-- The refused words of 95_test_vectors.md section 2.6. -/
theorem test_decode_refused :
    ∀ w ∈ [0x4A43A357, 0x4A452357, 0x4A402357, 0x4A458357, 0xFA208257, 0xFA20E257, 0xFE20A257,
        0x3E1142D7, 0x3E1132D7, 0x3E1162D7, 0x3A1102D7, 0xFA20A253, 0x13, 0, 0xFFFFFFFF,
        0x82B572D7],
      decodeTableWord 32 w = none := by decide

/-- The encoder gives the words of 95_test_vectors.md. -/
theorem test_encode_words :
    encode (.vzipVV 8 10 4 true) = 0xFAA22457 ∧ encode (.vunzipoV 10 16 true) = 0x4B07A557 ∧
    encode (.vpairoVV 31 30 29 false) = 0x3DEEAFD7 ∧ encode (.vsetvli 5 10 0x91) = 0x091572D7 ∧
    encode (.vsetivli 5 3 0x10) = 0xC101F2D7 := by decide

/-! ### Results (95_test_vectors.md section 2) -/

/-- Z4, Z7 and Z15. -/
theorem test_vzip_results :
    elems (runWord (demo 0x10 4 0 0b01101101) 0xF820A257) 4 32 8 =
      [0x20, 0xA1, 0x21, 0x11, 0xB0, 0x12, 0x23, 0xB3] ∧
    elems (runWord (demo 0x10 4 0 0) 0xFA50A257) 4 32 8 =
      [0xB0, 0x10, 0xB1, 0x11, 0xB2, 0x12, 0xB3, 0x13] ∧
    elems (runWord (demo 0x10 4 1 0b11111101) 0xF820A257) 4 32 8 =
      [0xA0, 0xA1, 0x21, 0x11, 0x22, 0x12, 0x23, 0x13] := by decide

/-- ZR1 to ZR4, ZR6, ZR7, ZR10, ZR12, ZR13, ZR16, ZR17, ZR19, ZR23 fault; ZR5, ZR8, ZR11, ZR14, ZR18,
ZR20, ZR22 complete. -/
theorem test_vzip_legality :
    (∀ p ∈ [(0x10, 0xFA40A257), (0x10, 0xFA222257), (0x10, 0xFA20A1D7), (0x10, 0xF820A057),
        (0x03, 0xFB0C2457), (0x17, 0xFA40A257), (0x11, 0xFA412257), (0x11, 0xFA62A257),
        (0x11, 0xFA222357), (0x12, 0xF8442057), (0x12, 0xFA862257), (0x10, 0xFBE0AF57),
        (0x10, 0xF9FFAFD7)],
      faultOf (runWord (demo p.1 1 0 0) p.2) =
        some (.illegalInstruction 0x1000 (BitVec.ofNat 32 p.2))) ∧
    (∀ p ∈ [(0x10, 0xFA20A057), (0x17, 0xFA532257), (0x11, 0xFA612257), (0x12, 0xFAC82457),
        (0x10, 0xFBFFAF57), (0x10, 0xFA30A157), (0x10, 0xF8002157)],
      isNext (runWord (demo p.1 1 0 0) p.2) = true) := by decide

/-- As UZ1, UZ5, UZ10 and UZ3, from `v4 = A0..A3`, `v5 = B0..B3`, `v6 = C0..C3`. -/
theorem test_vunzipe_results :
    elems (runWord (demo 0x10 4 0 0) 0x4A45A357) 6 32 4 = [0xA0, 0xA2, 0xB0, 0xB2] ∧
    elems (runWord (demo 0x10 4 0 0b0101) 0x4845A357) 6 32 4 = [0xA0, 0xC1, 0xB0, 0xC3] ∧
    elems (runWord (demo 0x10 2 0 0) 0x4A45A257) 4 32 8 =
      [0xA0, 0xA2, 0xA2, 0xA3, 0xB0, 0xB1, 0xB2, 0xB3] ∧
    elems (runWord (demo 0x10 3 0 0) 0x4A45A357) 6 32 4 = [0xA0, 0xA2, 0xB0, 0xC3] := by decide

/-- UZR1, UZR3, UZR4, UZR7, UZR9, UZR12, UZR15, UZR16 fault; UZR6, UZR11, UZR17, UZR19, UZR21 complete. -/
theorem test_vunzipe_legality :
    (∀ p ∈ [(0x10, 0x4A45A2D7), (0x10, 0x4A55A357), (0x10, 0x4845A057), (0x03, 0x4B05A457),
        (0x12, 0x4A85A657), (0x12, 0x4AC5A257), (0x11, 0x4A85A2D7), (0x11, 0x4A65A157)],
      faultOf (runWord (demo p.1 1 0 0) p.2) =
        some (.illegalInstruction 0x1000 (BitVec.ofNat 32 p.2))) ∧
    (∀ p ∈ [(0x10, 0x4805A157), (0x12, 0x4A85A257), (0x17, 0x4A45A257), (0x17, 0x4A45A2D7),
        (0x10, 0x4BE5AF57)],
      isNext (runWord (demo p.1 1 0 0) p.2) = true) := by decide

/-- As UZ2, UZ9, UZ12 and UZ17, from `v4 = A0..A3`, `v5 = B0..B3`, `v7 = D0..D3`. -/
theorem test_vunzipo_results :
    elems (runWord (demo 0x10 4 0 0) 0x4A47A3D7) 7 32 4 = [0xA1, 0xA3, 0xB1, 0xB3] ∧
    elems (runWord (demo 0x10 4 0 0) 0x4A47A257) 4 32 8 =
      [0xA1, 0xA3, 0xB1, 0xB3, 0xB0, 0xB1, 0xB2, 0xB3] ∧
    elems (runWord (demo 0x10 4 2 0) 0x4A47A3D7) 7 32 4 = [0xD0, 0xD1, 0xB1, 0xB3] ∧
    elems (runWord (demo 0x17 2 0 0) 0x4A47A3D7) 7 32 4 = [0xA1, 0xA3, 0xD2, 0xD3] := by decide

/-- UZR2, UZR8, UZR13 fault; UZR5, UZR10, UZR14, UZR18 complete. -/
theorem test_vunzipo_legality :
    (∀ p ∈ [(0x10, 0x4A47A2D7), (0x03, 0x4B07A457), (0x11, 0x4A47A357)],
      faultOf (runWord (demo p.1 1 0 0) p.2) =
        some (.illegalInstruction 0x1000 (BitVec.ofNat 32 p.2))) ∧
    (∀ p ∈ [(0x10, 0x4A47A057), (0x12, 0x4A87A457), (0x11, 0x4A47A157), (0x06, 0x4A47A257)],
      isNext (runWord (demo p.1 1 0 0) p.2) = true) := by decide

/-- As VP1, VP9, VP12 and VP17, from `v5 = B0..B3`. -/
theorem test_vpaire_results :
    elems (runWord (demo 0x10 4 0 0) 0x3E1102D7) 5 32 4 = [0x10, 0x20, 0x12, 0x22] ∧
    elems (runWord (demo 0x10 4 0 0b0110) 0x3C1102D7) 5 32 4 = [0xB0, 0x20, 0x12, 0xB3] ∧
    elems (runWord (demo 0x10 4 1 0) 0x3E1102D7) 5 32 4 = [0xB0, 0x20, 0x12, 0x22] ∧
    elems (runWord (demo 0x10 4 0 0) 0x3E1082D7) 5 32 4 = [0x10, 0x10, 0x12, 0x12] := by decide

/-- VPR1, VPR3, VPR10, VPR11, VPR13, VPR18 fault; VPR5, VPR7, VPR12, VPR14, VPR19 complete. -/
theorem test_vpaire_legality :
    (∀ p ∈ [(0x10, 0x3E5102D7), (0x10, 0x3C110057), (0x03, 0x3F0C0257), (0x03, 0x3C880057),
        (0x01, 0x3E320157), (0x17, 0x3E5102D7)],
      faultOf (runWord (demo p.1 1 0 0) p.2) =
        some (.illegalInstruction 0x1000 (BitVec.ofNat 32 p.2))) ∧
    (∀ p ∈ [(0x10, 0x3E110057), (0x03, 0x3F0C0457), (0x03, 0x3F080457), (0x01, 0x3E430157),
        (0x17, 0x3E6382D7)],
      isNext (runWord (demo p.1 1 0 0) p.2) = true) := by decide

/-- VP4 and VP7, which read one element past `vl`, from `v6 = C0..C3`; VP19, which zero-fills. -/
theorem test_vpairo_results :
    elems (runWord (demo 0x10 3 0 0) 0x3E112357) 6 32 4 = [0x11, 0x21, 0x13, 0xC3] ∧
    elems (runWord (demo 0x10 1 0 0) 0x3E112357) 6 32 4 = [0x11, 0xC1, 0xC2, 0xC3] ∧
    elems (runWord (launch tinyConfig 0x10 1 0 [(1, 0x11111111), (2, 0x22222222), (6, 0xBBBBBBBB)] [])
      0x3E112357) 6 32 1 = [0] := by decide

/-- VPR2, VPR4, VPR9, VPR15, VPR16 fault; VPR6, VPR8, VPR17, VPR21 complete. -/
theorem test_vpairo_legality :
    (∀ p ∈ [(0x10, 0x3E132357), (0x10, 0x3C112057), (0x03, 0x3E8C2457), (0x01, 0x3E432257),
        (0x01, 0x3C432057)],
      faultOf (runWord (demo p.1 1 0 0) p.2) =
        some (.illegalInstruction 0x1000 (BitVec.ofNat 32 p.2))) ∧
    (∀ p ∈ [(0x10, 0x3C0022D7), (0x03, 0x3F0C2457), (0x02, 0x3C802257), (0x10, 0x3DEEAFD7)],
      isNext (runWord (demo p.1 1 0 0) p.2) = true) := by decide

/-- S1, S3, S8, S11, S17 and S18. -/
theorem test_vsetvli_results :
    settings (runWord (demo 0x10 1 3 0) 0x0D0072D7) = [0xD0, 4, 4, 0] ∧
    settings (runWord (launch elen32Config 0x10 1 0 [] []) 0x0D8072D7) = [2 ^ 63, 0, 0, 0] ∧
    settings (runWord (launch resetConfig 0x10 1 0 [] [(10, 5)]) 0x091572D7) = [0x91, 5, 5, 0] ∧
    settings (runWord (launch resetConfig 0x10 1 0 [] [(10, 16)]) 0x091572D7) = [0x91, 8, 8, 0] ∧
    settings (runWord (demo 0x10 1 0 0) 0x0C5072D7) = [0xC5, 2, 2, 0] ∧
    settings (runWord (launch elen32Config 0x10 1 0 [] []) 0x0C5072D7) = [2 ^ 63, 0, 0, 0] := by
  decide

/-- S13, S14, S19, S20, S21. -/
theorem test_vsetvli_edges :
    settings (runWord (demo 0x10 3 0 0) 0x0D007057) = [0xD0, 3, 0, 0] ∧
    refusalOf (runWord (demo 0x11 7 0 0) 0x0D007057) = some (.keepVlReserved 0x1000 0x0D007057) ∧
    settings (runWord (demo 0x10 3 0 0) 0x0E0072D7) = [2 ^ 63, 0, 0, 0] ∧
    settings (runWord (demo 0x10 3 0 0) 0x0D4072D7) = [2 ^ 63, 0, 0, 0] ∧
    faultOf (step ((State.withFetchWord { demo 0x10 3 0 0 with vectorEnabled := false } 32
      0x0D0072D7))) = some (.illegalInstruction 0x1000 0x0D0072D7) := by decide

/-- S4, S5, S6 and S7. -/
theorem test_vsetivli_results :
    settings (runWord (demo 0x10 1 0 0) 0xC101F2D7) = [0x10, 3, 3, 0] ∧
    settings (runWord (demo 0x10 1 0 0) 0xCD0272D7) = [0xD0, 4, 4, 0] ∧
    settings (runWord (demo 0x10 1 0 0) 0xCD0072D7) = [0xD0, 0, 0, 0] ∧
    settings (runWord (demo 0x10 1 0 0) 0xC42FF057) = [0x42, 31, 0, 0] := by decide

/-- S15 and S16. -/
theorem test_vsetvl_results :
    settings (runWord (launch resetConfig 0x10 1 0 [] [(10, 100), (11, 0xD0)]) 0x80B572D7) =
      [0xD0, 4, 4, 0] ∧
    settings (runWord (launch resetConfig 0x10 1 0 [] [(10, 100), (11, 0x1D0)]) 0x80B572D7) =
      [2 ^ 63, 0, 0, 0] := by decide

/-! ### Witnesses: concrete states and operands that meet the hypotheses of each obligation -/

/-- `SEW = 32`, `LMUL = 1`, `vl = 3`, `vstart = 1`, tail and mask agnostic, mask `0b0100`: as
destination elements of a `vl` instruction, 0 is prestart, 1 inactive, 2 active and 3 tail. -/
def agnosticState : State := demo 0xD0 3 1 0b0100

/-- The same, undisturbed. -/
def undisturbedState : State := demo 0x10 3 1 0b0100

/-- The setting of both. -/
def e32m1 : Setting := ⟨32, 8⟩

theorem agnosticState_inv : agnosticState.Inv := inv_of _ (by decide)

theorem undisturbedState_inv : undisturbedState.Inv := inv_of _ (by decide)

theorem witness_DecodeOfEncode :
    WellFormed (.vsetivli 31 31 0x3FF) ∧ WellFormed (.vsetvl 31 31 31) ∧
      WellFormed (.vzipVV 31 31 31 false) := by decide

theorem witness_RowsAreExclusive :
    (∃ r ∈ opcodeTable, (0xF8002057 : Insn) &&& r.mask = r.pattern) ∧
      ∀ r ∈ opcodeTable, (0x13 : Insn) &&& r.mask ≠ r.pattern := by decide

theorem witness_StepRunsTheDecodedInstruction :
    WellFormed (.vpaireVV 5 1 2 true) ∧
      (agnosticState.placeWord 0x3E1102D7).fetchBytes =
        some (insnBytes (encode (.vpaireVV 5 1 2 true))) := by decide

/-- The word lies across the end of the address space. -/
theorem witness_PlacedWord :
    ({ agnosticState with pc := BitVec.ofNat 64 (2 ^ 64 - 2) } : State).cfg.WF ∧
      decodeWord 0x3E1102D7 = some (.vpaireVV 5 1 2 true) ∧
      (({ agnosticState with pc := BitVec.ofNat 64 (2 ^ 64 - 2) } : State).placeWord
        0x3E1102D7).mem.map Prod.fst = [0, 1, 2 ^ 64 - 2, 2 ^ 64 - 1] := by decide

theorem witness_UnassignedWord :
    (agnosticState.placeWord 0x13).fetchBytes = some [0x13, 0, 0, 0] ∧
      ∀ r ∈ opcodeTable, wordOfBytes 0x13 0 0 0 &&& r.mask ≠ r.pattern := by decide

/-- No byte, and all but the last one. -/
theorem witness_RunEnds :
    agnosticState.fetchByte 0 = none ∧
      ({ agnosticState with mem := [(0x1000, 0xD7), (0x1001, 2), (0x1002, 0x11)] } : State).fetchByte
        3 = none := by decide

theorem witness_FaultCarries :
    faultOf (step (agnosticState.placeWord 0xFA40A257)) =
      some (.illegalInstruction 0x1000 0xFA40A257) := by decide

/-- Legal operands in both states, masked: `vzip.vv` disjoint, and with a source in the upper half. -/
theorem witness_Vzip :
    Ready agnosticState e32m1 ∧ LegalVzip 4 2 1 false 8 ∧ Ready undisturbedState e32m1 ∧
      LegalVzip 4 5 5 false 8 ∧ LegalVzip 8 12 16 true 32 ∧ LegalVzip 4 2 1 true 4 :=
  ⟨by decide, by decide, by decide, by decide, by decide, by decide⟩

/-- Each class of destination element of that `vzip.vv`: `EVL = 6`, capacity 8. -/
theorem witness_Vzip_classes :
    0 < agnosticState.vstart.toNat ∧ 2 * agnosticState.vl.toNat = 6 ∧
      maskBit agnosticState.v 1 = false ∧ maskBit agnosticState.v 2 = true ∧
      max 1 (2 * 8 / 8) * agnosticState.cfg.vlen / 32 = 8 ∧ agnosticState.vma = true ∧
      agnosticState.vta = true ∧ undisturbedState.vma = false ∧ undisturbedState.vta = false := by
  decide

theorem witness_Vunzip :
    LegalVunzip 6 4 false 8 ∧ LegalVunzip 4 4 true 8 ∧ LegalVunzip 4 4 true 1 ∧
      LegalVunzip 8 8 true 32 :=
  ⟨by decide, by decide, by decide, by decide⟩

theorem witness_Vpair :
    LegalVpair 5 1 2 false 8 ∧ LegalVpair 8 16 24 true 64 ∧ LegalVpair 5 6 7 true 4 :=
  ⟨by decide, by decide, by decide⟩

/-- `VLMAX = 1`, where `vpairo.vv` zero-fills. -/
def oneElement : State := launch tinyConfig 0x10 1 0 [(1, 0x11111111), (2, 0x22222222)] []

theorem oneElement_inv : oneElement.Inv := inv_of _ (by decide)

/-- Both sides of the zero fill: `VLMAX = 1`, and index 3 of `VLMAX = 4`, the last one read. -/
theorem witness_VpairoZeroFill :
    Ready oneElement e32m1 ∧ LegalVpair 6 1 2 true 8 ∧ e32m1.vlmax oneElement.cfg.vlen = 1 ∧
      oneElement.vl.toNat = 1 ∧ oneElement.vstart = 0 ∧ Ready agnosticState e32m1 ∧
      e32m1.vlmax agnosticState.cfg.vlen = 4 ∧ 2 < agnosticState.vl.toNat := by decide

/-- The premises shared by the statements on prestart, active, inactive and tail elements and by the
frame: both instructions complete, and every class has an element. -/
theorem witness_elementClasses :
    (Instr.vpaireVV 5 1 2 false).destShape = some ⟨5, false, 1, 1⟩ ∧
      agnosticState.setting = some e32m1 ∧ undisturbedState.setting = some e32m1 ∧
      (∃ t, exec (.vpaireVV 5 1 2 false) agnosticState = .next t) ∧
      (∃ t, exec (.vpaireVV 5 1 2 false) undisturbedState = .next t) ∧
      max 1 (1 * e32m1.lmul8 / 8) * 128 / e32m1.sew = 4 ∧ agnosticState.vstart.toNat = 1 ∧
      1 * agnosticState.vl.toNat = 3 ∧ maskBit agnosticState.v 1 = false ∧
      maskBit agnosticState.v 2 = true ∧ ¬ InGroup 5 (1 * e32m1.lmul8) 6 :=
  ⟨rfl, by decide, by decide, exists_next (by decide), exists_next (by decide), by decide, by decide,
    by decide, by decide, by decide, by decide⟩

/-- `vl = 0`, and `vstart` equal to the `EVL` of `vzip.vv`. -/
theorem witness_EmptyBody :
    (demo 0xD0 0 0 0).Inv ∧ Ready (demo 0xD0 0 0 0) e32m1 ∧ 2 * (demo 0xD0 0 0 0).vl.toNat = 0 ∧
      (demo 0xD0 3 6 0).Inv ∧ Ready (demo 0xD0 3 6 0) e32m1 ∧
      2 * (demo 0xD0 3 6 0).vl.toNat ≤ (demo 0xD0 3 6 0).vstart.toNat ∧
      (Instr.vzipVV 4 2 1 true).Legal e32m1.lmul8 :=
  ⟨inv_of _ (by decide), by decide, by decide, inv_of _ (by decide), by decide, by decide,
    show LegalVzip 4 2 1 true 8 by decide⟩

theorem witness_EndOfInstruction :
    (∃ t, exec (.vunzipoV 7 4 true) agnosticState = .next t) ∧
      (∃ t, exec (.vsetivli 5 3 0x10) agnosticState = .next t) ∧
      faultOf (exec (.vzipVV 4 4 1 true) agnosticState) =
        some (.illegalInstruction 0x1000 0xFA40A257) :=
  ⟨exists_next (by decide), exists_next (by decide), by decide⟩

/-- The last word of the address space: `pc` wraps to 0 (10_state.md R31). -/
theorem witness_pcWraps :
    (match exec (.vunzipoV 7 4 true) { agnosticState with pc := BitVec.ofNat 64 (2 ^ 64 - 4) } with
      | .next t => some t.pc.toNat
      | .fault _ => none
      | .refused _ => none) = some 0 := by decide

/-- A reserved form of each predicate: overlap, `LMUL = 8`, alignment, masked destination on `v0`. -/
theorem witness_Reserved :
    Ready agnosticState e32m1 ∧ ¬ LegalVzip 4 4 1 true 8 ∧ ¬ LegalVunzip 8 16 true 64 ∧
      ¬ LegalVunzip 6 5 true 8 ∧ ¬ LegalVpair 0 1 2 false 8 :=
  ⟨by decide, by decide, by decide, by decide, by decide⟩

/-- Each gate closed, the last with `vill = 0`. -/
theorem witness_Gate :
    (Instr.vpairoVV 3 1 2 true).destShape ≠ none ∧
      ({ agnosticState with vectorEnabled := false } : State).vectorEnabled = false ∧
      (demo (2 ^ 63) 0 0 0).vill = true ∧
      (launch { resetConfig with nonzeroVstartTraps := true } 0x10 4 1 [] []).vstart ≠ 0 ∧
      faultOf (exec (.vzipVV 4 2 1 true)
        (launch { resetConfig with nonzeroVstartTraps := true } 0x10 4 1 [] [])) =
        some (.illegalInstruction 0x1000 0xFA20A257) := by decide

/-- `vl` one above `VLMAX`; an element wider than a register; each reserved code, the least `vsew` and
the one `vlmul`. -/
theorem witness_ReservedVtypeCodeLongVlOrWideSew :
    Ready (demo 0x10 5 0 0) e32m1 ∧
      e32m1.vlmax (demo 0x10 5 0 0).cfg.vlen < (demo 0x10 5 0 0).vl.toNat ∧
      Ready (launch tinyConfig 0x19 1 0 [] []) ⟨64, 16⟩ ∧
      (launch tinyConfig 0x19 1 0 [] []).cfg.vlen < 64 ∧ LegalVpair 6 2 4 true 16 ∧
      refusalOf (exec (.vpaireVV 6 2 4 true) (launch tinyConfig 0x19 1 0 [] [])) =
        some (.outsideLaunchInvariants 0x1000 0x3E220357) ∧
      (demo 0x20 0 0 0).vill = false ∧ (demo 0x20 0 0 0).vtype.toNat / 8 % 8 = 4 ∧
      (demo 0x14 0 0 0).vill = false ∧ (demo 0x14 0 0 0).vtype.toNat % 8 = 4 := by decide

/-- Outside R35 and not refused: `e64` at `ELEN = 32`, whose element fits in a register. -/
theorem test_unsupportedSettingRuns :
    isNext (exec (.vpaireVV 5 1 2 true) (launch elen32Config 0x18 2 0 [] [])) = true := by decide

/-- The loop and the snapshot, on the legal overlap Z7. -/
theorem witness_SailLoop :
    Ready undisturbedState e32m1 ∧ undisturbedState.vma = false ∧ undisturbedState.vta = false ∧
      LegalVzip 4 5 1 true 8 := by decide

/-- PG4's shape: zip into `v8`, unzip into `v12`, and back over the zipped group. -/
theorem witness_UnzipsInvertZip :
    (demo 0x10 3 0 0).Inv ∧ Ready (demo 0x10 3 0 0) e32m1 ∧ (demo 0x10 3 0 0).vstart = 0 ∧
      LegalVzip 8 1 2 true e32m1.lmul8 ∧ LegalVunzip 12 8 true e32m1.lmul8 ∧
      LegalVunzip 8 8 true e32m1.lmul8 :=
  ⟨inv_of _ (by decide), by decide, by decide, by decide, by decide, by decide⟩

/-- A completed masked instruction, and a register outside its operands. -/
theorem witness_ReadsOnlyItsOperands :
    (∃ v', exec (.vpaireVV 5 1 2 false) agnosticState = .next { agnosticState with
      v := v', vstart := 0, pc := agnosticState.pc + 4, draws := agnosticState.draws + 1 }) ∧
      ¬ InGroup 5 (1 * e32m1.lmul8) 6 ∧
      (∀ g ∈ (Instr.vpaireVV 5 1 2 false).sourceGroups e32m1.lmul8, ¬ InGroup g.1 g.2 6) :=
  ⟨⟨_, rfl⟩, by decide, by decide⟩

/-- `e32, m2, tu, ma` is granted; the AVLs at the ends of R112's ranges for its `VLMAX = 8`. -/
theorem witness_VsetGranted :
    resetConfig.WF ∧ (demo 0 0 0 0).vectorEnabled = true ∧
      RequestGranted resetConfig ((0x91 : BitVec 11).setWidth 64) ⟨32, 16⟩ ∧
      RequestGranted resetConfig ((0xC5 : BitVec 11).setWidth 64) ⟨8, 1⟩ ∧
      (⟨32, 16⟩ : Setting).vlmax 128 = 8 ∧ newVl 8 8 = 8 ∧ newVl 16 8 = 8 ∧ newVl 0 8 = 0 ∧
      (¬ 9 ≤ 8 ∧ ¬ 2 * 8 ≤ 9 ∧ ¬ 2 * 8 ≤ 15) := by decide

/-- `vsetvl`'s request is `x[rs2]`. -/
theorem witness_VsetvlGranted :
    RequestGranted resetConfig ((launch resetConfig 0x10 1 0 [] [(11, 0xD0)]).readX 11) e32m1 := by
  decide

/-- A setting the implementation adds: `e16, mf8` at `VLEN = 128`, whose `VLMAX` is 1. -/
theorem witness_ExtraVtype :
    RequestGranted { resetConfig with extraVtypes := [(1, 5)] } (0x0D : BitVec 64) ⟨16, 1⟩ ∧
      (⟨16, 1⟩ : Setting).vlmax 128 = 1 ∧
      requestedSetting resetConfig (0x0D : BitVec 64) = none := by decide

/-- Requests that are not granted: a reserved bit, a reserved `vsew`, a reserved `vlmul`. -/
theorem witness_Ungranted :
    (∀ st, ¬ RequestGranted resetConfig ((0x1D0 : BitVec 11).setWidth 64) st) ∧
      (∀ st, ¬ RequestGranted resetConfig ((0xE0 : BitVec 11).setWidth 64) st) ∧
      ∀ st, ¬ RequestGranted resetConfig ((0xD4 : BitVec 11).setWidth 64) st := by
  have h : ∀ nv : BitVec 64, requestedSetting resetConfig nv = none →
      ∀ st, ¬ RequestGranted resetConfig nv st := fun nv hn st hg => by
    rw [(requestGranted_iff resetConfig nv st).1 hg] at hn
    cases hn
  exact ⟨h _ (by decide), h _ (by decide), h _ (by decide)⟩

/-- The keep form: the same `VLMAX`, another one, and no current one. -/
theorem witness_KeepForm :
    (demo 0x10 3 0 0).Inv ∧ (demo 0x10 3 0 0).vill = false ∧
      (demo 0x10 3 0 0).setting = some e32m1 ∧
      RequestGranted resetConfig ((0xD0 : BitVec 11).setWidth 64) e32m1 ∧
      RequestGranted resetConfig ((0xD1 : BitVec 11).setWidth 64) ⟨32, 16⟩ ∧
      e32m1.vlmax 128 ≠ (⟨32, 16⟩ : Setting).vlmax 128 ∧ (demo (2 ^ 63) 0 0 0).vill = true ∧
      (demo (2 ^ 63) 0 0 0).VtypeConsistent :=
  ⟨inv_of _ (by decide), by decide, by decide, by decide, by decide, by decide, by decide,
    fun _ => ⟨by decide, by decide⟩, fun h => absurd h (by decide)⟩

theorem witness_VsetFrame :
    (Instr.vsetivli 5 3 0x10).vsetRd = some 5 ∧
      (∃ t, exec (.vsetivli 5 3 0x10) (demo 0x10 1 0 0) = .next t) ∧
      (Instr.vsetvli 0 0 0xD0).vsetRd = some 0 ∧
      (∃ t, exec (.vsetvli 0 0 0xD0) (demo 0x10 3 0 0) = .next t) ∧
      faultOf (exec (.vsetvl 5 10 11) { demo 0x10 1 0 0 with vectorEnabled := false }) =
        some (.illegalInstruction 0x1000 0x80B572D7) :=
  ⟨rfl, exists_next (by decide), rfl, exists_next (by decide), by decide⟩

/-- PG2's request, not granted, by each of the three instructions. -/
theorem witness_UngrantedThenFault :
    elen32Config.WF ∧
      (Instr.vsetvli 5 0 0xD8).vtypeRequest (launch elen32Config 0x10 1 0 [] [(11, 0xD8)]) =
        some 0xD8 ∧
      (Instr.vsetivli 5 4 0xD8).vtypeRequest (launch elen32Config 0x10 1 0 [] [(11, 0xD8)]) =
        some 0xD8 ∧
      (Instr.vsetvl 5 0 11).vtypeRequest (launch elen32Config 0x10 1 0 [] [(11, 0xD8)]) =
        some 0xD8 ∧
      (∀ st, ¬ RequestGranted elen32Config (0xD8 : BitVec 64) st) ∧
      (Instr.vpaireVV 1 5 7 true).destShape ≠ none := by
  refine ⟨by decide, by decide, by decide, by decide, fun st hg => ?_, by decide⟩
  have h : requestedSetting elen32Config (0xD8 : BitVec 64) = none := by decide
  rw [(requestGranted_iff _ _ st).1 hg] at h
  cases h

/-- A state with the invariants that steps, once by a Zvzip instruction and once by a `vset*`. -/
theorem witness_Step :
    (agnosticState.placeWord 0x3E1102D7).Inv ∧
      (∃ t, step (agnosticState.placeWord 0x3E1102D7) = .next t) ∧
      (agnosticState.placeWord 0xC101F2D7).Inv ∧
      ∃ t, step (agnosticState.placeWord 0xC101F2D7) = .next t :=
  ⟨inv_of _ (by decide), exists_next (by decide), inv_of _ (by decide), exists_next (by decide)⟩

/-- A `vset*` that changes `vl`, and a Zvzip instruction that changes a vector register. -/
theorem witness_WhoWrites :
    settings (exec (.vsetivli 5 4 0x10) (demo 0x10 1 0 0)) = [0x10, 4, 4, 0] ∧
      elems (exec (.vpaireVV 5 1 2 true) (demo 0x10 4 0 0)) 5 32 1 = [0x10] ∧
      (getVelem (demo 0x10 4 0 0).v 5 32 0).toNat = 0xB0 := by decide

/-- `vstart` at the top of its writable range, and one bit above it; each access with the unit off. -/
theorem witness_VectorCsrs :
    agnosticState.cfg.WF ∧ agnosticState.vectorEnabled = true ∧
      (agnosticState.writeVstart 127).map (fun t => t.vstart.toNat) = some 127 ∧
      (agnosticState.writeVstart 129).map (fun t => t.vstart.toNat) = some 1 ∧
      agnosticState.readCsr 0xC22 = some 16 ∧
      ({ agnosticState with vectorEnabled := false } : State).readCsr 0x008 = none ∧
      (({ agnosticState with vectorEnabled := false } : State).writeVstart 1).isNone = true := by
  decide

end Sys2Proof.Tests
end

/-! ## Decoding an encoding

The decoder gives back an encoded instruction: the word of an instruction matches its own row of the
opcode table, no word matches two rows, and the row's operand fields are the instruction's operands
(30_encoding.md R51 to R59, 44_context_vset.md R110). -/

namespace Sys2Proof

/-- The rows of `opcodeTable_pairwise` may be named in either order. -/
theorem rowsDiffer_symm : Std.Symm fun a b : OpRow =>
    (a.pattern ^^^ b.pattern) &&& (a.mask &&& b.mask) ≠ 0 where
  symm a b h := by rwa [BitVec.xor_comm, BitVec.and_comm b.mask]

/-- No word matches two rows: they differ in a bit that both fix (30_encoding.md R59). -/
theorem rowMatches_unique {w : Insn} {q r : OpRow} (hq : q ∈ opcodeTable) (hr : r ∈ opcodeTable)
    (hwq : rowMatches w q = true) (hwr : rowMatches w r = true) : q = r := by
  have hwq : w &&& q.mask = q.pattern := by simpa [rowMatches] using hwq
  have hwr : w &&& r.mask = r.pattern := by simpa [rowMatches] using hwr
  have := rowsDiffer_symm
  by_contra hne
  refine opcodeTable_pairwise.forall hq hr hne (BitVec.eq_of_getLsbD_eq fun k _ => ?_)
  rw [← hwq, ← hwr, show (0 : Insn).getLsbD k = false from BitVec.getLsbD_zero]
  simp only [BitVec.getLsbD_and, BitVec.getLsbD_xor]
  cases w.getLsbD k <;> cases q.mask.getLsbD k <;> cases r.mask.getLsbD k <;> rfl

/-- A word that matches a row decodes to that row's instruction. -/
theorem decodeWord_of_rowMatches {w : Insn} {r : OpRow} (hr : r ∈ opcodeTable)
    (hw : rowMatches w r = true) : decodeWord w = some (buildInstr r.op w) := by
  obtain ⟨q, hq⟩ := Option.isSome_iff_exists.1 (List.find?_isSome.2 ⟨r, hr, hw⟩)
  have hqr : q = r :=
    rowMatches_unique (List.mem_of_find?_eq_some hq) hr (List.find?_some hq) hw
  rw [decodeWord, hq, hqr, Option.map_some]

/-- A field of a word is read bit by bit. -/
theorem extractLsb'_eq_of_getLsbD {w : Insn} {lo n : Nat} {x : BitVec n}
    (h : ∀ k < n, w.getLsbD (lo + k) = x.getLsbD k) : w.extractLsb' lo n = x :=
  BitVec.eq_of_getLsbD_eq fun k hk => by
    rw [BitVec.getLsbD_extractLsb', h k hk, decide_eq_true hk, Bool.true_and]

/-! ### The OP-V arithmetic format (R51, R53) -/

section
variable (funct6 : BitVec 6) (vm : Bool) (vs2 vs1 : BitVec 5) (funct3 : BitVec 3) (vd : BitVec 5)

@[simp] theorem fieldVd_encodeArith : fieldVd (encodeArith funct6 vm vs2 vs1 funct3 vd) = vd :=
  extractLsb'_eq_of_getLsbD fun k hk => by
    rw [encodeArith_getLsbD]
    interval_cases k <;> rfl

@[simp] theorem fieldVs1_encodeArith : fieldVs1 (encodeArith funct6 vm vs2 vs1 funct3 vd) = vs1 :=
  extractLsb'_eq_of_getLsbD fun k hk => by
    rw [encodeArith_getLsbD]
    interval_cases k <;> rfl

@[simp] theorem fieldVs2_encodeArith : fieldVs2 (encodeArith funct6 vm vs2 vs1 funct3 vd) = vs2 :=
  extractLsb'_eq_of_getLsbD fun k hk => by
    rw [encodeArith_getLsbD]
    interval_cases k <;> rfl

@[simp] theorem fieldVm_encodeArith : fieldVm (encodeArith funct6 vm vs2 vs1 funct3 vd) = vm :=
  encodeArith_getLsbD funct6 vm vs2 vs1 funct3 vd 25

/-- The mask of the rows with two sources keeps `funct6`, `funct3` and the opcode (R54, R57, R58). -/
theorem encodeArith_and_binaryMask :
    encodeArith funct6 vm vs2 vs1 funct3 vd &&& 0xFC00707F =
      encodeArith funct6 false 0 0 funct3 0 := by
  refine BitVec.eq_of_getLsbD_eq fun k hk => ?_
  rw [BitVec.getLsbD_and, encodeArith_getLsbD, encodeArith_getLsbD]
  interval_cases k <;> simp

/-- The mask of the rows with one source keeps the `vs1` field too (R55, R56). -/
theorem encodeArith_and_unaryMask :
    encodeArith funct6 vm vs2 vs1 funct3 vd &&& 0xFC0FF07F =
      encodeArith funct6 false 0 vs1 funct3 0 := by
  refine BitVec.eq_of_getLsbD_eq fun k hk => ?_
  rw [BitVec.getLsbD_and, encodeArith_getLsbD, encodeArith_getLsbD]
  interval_cases k <;> simp

end

/-! ### The context instructions (44_context_vset.md R110) -/

theorem encode_vsetvli_and_mask (rd rs1 : RegNum) (vtypei : BitVec 11) :
    encode (.vsetvli rd rs1 vtypei) &&& 0x8000707F = 0x00007057 := by
  refine BitVec.eq_of_getLsbD_eq fun k hk => ?_
  rw [BitVec.getLsbD_and, encode_vsetvli_getLsbD]
  interval_cases k <;> simp

theorem encode_vsetivli_and_mask (rd : RegNum) (uimm : BitVec 5) (vtypei : BitVec 11) :
    encode (.vsetivli rd uimm vtypei) &&& 0xC000707F = 0xC0007057 := by
  refine BitVec.eq_of_getLsbD_eq fun k hk => ?_
  rw [BitVec.getLsbD_and, encode_vsetivli_getLsbD]
  interval_cases k <;> simp

theorem encode_vsetvl_and_mask (rd rs1 rs2 : RegNum) :
    encode (.vsetvl rd rs1 rs2) &&& 0xFE00707F = 0x80007057 := by
  refine BitVec.eq_of_getLsbD_eq fun k hk => ?_
  rw [BitVec.getLsbD_and, encode_vsetvl_getLsbD]
  interval_cases k <;> simp

theorem buildInstr_encode_vsetvli (rd rs1 : RegNum) (vtypei : BitVec 11) :
    buildInstr .vsetvli (encode (.vsetvli rd rs1 vtypei)) = .vsetvli rd rs1 vtypei := by
  rw [buildInstr, Instr.vsetvli.injEq]
  refine ⟨?_, ?_, ?_⟩ <;> refine extractLsb'_eq_of_getLsbD fun k hk => ?_ <;>
    rw [encode_vsetvli_getLsbD] <;> interval_cases k <;> rfl

/-- The ten immediate bits of `vsetivli`, widened again, are the operand if its bit 10 is 0. -/
theorem setWidth_extractLsb'_of_bit10 {vtypei : BitVec 11} (h : vtypei.getLsbD 10 = false) :
    (vtypei.extractLsb' 0 10).setWidth 11 = vtypei := by
  refine BitVec.eq_of_getLsbD_eq fun k hk => ?_
  rw [BitVec.getLsbD_setWidth, BitVec.getLsbD_extractLsb', Nat.zero_add]
  obtain rfl | hk10 : k = 10 ∨ k < 10 := by omega
  · rw [h]; rfl
  · simp [hk, hk10]

theorem buildInstr_encode_vsetivli (rd : RegNum) (uimm : BitVec 5) (vtypei : BitVec 11)
    (h : vtypei.getLsbD 10 = false) :
    buildInstr .vsetivli (encode (.vsetivli rd uimm vtypei)) = .vsetivli rd uimm vtypei := by
  rw [buildInstr, Instr.vsetivli.injEq]
  refine ⟨?_, ?_, (congrArg (BitVec.setWidth 11) ?_).trans
      (setWidth_extractLsb'_of_bit10 h)⟩ <;>
    refine extractLsb'_eq_of_getLsbD fun k hk => ?_ <;>
    rw [encode_vsetivli_getLsbD] <;> interval_cases k <;> simp

theorem buildInstr_encode_vsetvl (rd rs1 rs2 : RegNum) :
    buildInstr .vsetvl (encode (.vsetvl rd rs1 rs2)) = .vsetvl rd rs1 rs2 := by
  rw [buildInstr, Instr.vsetvl.injEq]
  refine ⟨?_, ?_, ?_⟩ <;> refine extractLsb'_eq_of_getLsbD fun k hk => ?_ <;>
    rw [encode_vsetvl_getLsbD] <;> interval_cases k <;> rfl

/-! ### Every instruction -/

/-- The row of the opcode table an instruction is encoded by (R54 to R58, R110). -/
def Instr.row : Instr → OpRow
  | .vzipVV _ _ _ _ => ⟨.vzip, 0xF8002057, 0xFC00707F⟩
  | .vunzipeV _ _ _ => ⟨.vunzipe, 0x4805A057, 0xFC0FF07F⟩
  | .vunzipoV _ _ _ => ⟨.vunzipo, 0x4807A057, 0xFC0FF07F⟩
  | .vpaireVV _ _ _ _ => ⟨.vpaire, 0x3C000057, 0xFC00707F⟩
  | .vpairoVV _ _ _ _ => ⟨.vpairo, 0x3C002057, 0xFC00707F⟩
  | .vsetvli _ _ _ => ⟨.vsetvli, 0x00007057, 0x8000707F⟩
  | .vsetivli _ _ _ => ⟨.vsetivli, 0xC0007057, 0xC000707F⟩
  | .vsetvl _ _ _ => ⟨.vsetvl, 0x80007057, 0xFE00707F⟩

theorem Instr.row_mem_opcodeTable (i : Instr) : i.row ∈ opcodeTable := by
  cases i <;> simp [Instr.row, opcodeTable]

/-- An instruction's word matches its row. -/
theorem rowMatches_encode (i : Instr) : rowMatches (encode i) i.row = true := by
  rw [rowMatches, beq_iff_eq]
  cases i with
  | vzipVV vd vs2 vs1 vm => rw [encode, Instr.row, encodeArith_and_binaryMask]; rfl
  | vunzipeV vd vs2 vm => rw [encode, Instr.row, encodeArith_and_unaryMask]; rfl
  | vunzipoV vd vs2 vm => rw [encode, Instr.row, encodeArith_and_unaryMask]; rfl
  | vpaireVV vd vs2 vs1 vm => rw [encode, Instr.row, encodeArith_and_binaryMask]; rfl
  | vpairoVV vd vs2 vs1 vm => rw [encode, Instr.row, encodeArith_and_binaryMask]; rfl
  | vsetvli rd rs1 vtypei => exact encode_vsetvli_and_mask rd rs1 vtypei
  | vsetivli rd uimm vtypei => exact encode_vsetivli_and_mask rd uimm vtypei
  | vsetvl rd rs1 rs2 => exact encode_vsetvl_and_mask rd rs1 rs2

/-- A well-formed instruction's operands are read back from its word. -/
theorem buildInstr_encode {i : Instr} (hi : WellFormed i) : buildInstr i.row.op (encode i) = i := by
  cases i with
  | vzipVV vd vs2 vs1 vm => simp [Instr.row, buildInstr, encode]
  | vunzipeV vd vs2 vm => simp [Instr.row, buildInstr, encode]
  | vunzipoV vd vs2 vm => simp [Instr.row, buildInstr, encode]
  | vpaireVV vd vs2 vs1 vm => simp [Instr.row, buildInstr, encode]
  | vpairoVV vd vs2 vs1 vm => simp [Instr.row, buildInstr, encode]
  | vsetvli rd rs1 vtypei => exact buildInstr_encode_vsetvli rd rs1 vtypei
  | vsetivli rd uimm vtypei =>
    exact buildInstr_encode_vsetivli rd uimm vtypei (Bool.not_eq_eq_eq_not.1 hi)
  | vsetvl rd rs1 rs2 => exact buildInstr_encode_vsetvl rd rs1 rs2

/-- The word of a well-formed instruction decodes to the instruction. -/
theorem decodeWord_encode {i : Instr} (hi : WellFormed i) : decodeWord (encode i) = some i := by
  rw [decodeWord_of_rowMatches i.row_mem_opcodeTable (rowMatches_encode i), buildInstr_encode hi]

namespace Machine

/-- A step whose fetched bytes are those of a word that decodes runs the decoded instruction
(00_scope.md R11). -/
theorem step_of_fetchBytes {s : State} {w : Insn} {i : Instr}
    (hf : s.fetchBytes = some (insnBytes w)) (hw : decodeWord w = some i) : step s = exec i s := by
  have hd : decode (insnBytes w) = .ok i [] := by
    simpa [hw] using decode_insnBytes w []
  rw [step, hf]
  simp only [hd]

/-- Settles O5: the bytes of an encoding decode to the instruction, so the step is its execution. -/
theorem stepRunsTheDecodedInstruction : Obligations.StepRunsTheDecodedInstruction :=
  fun _ _ hi hf => step_of_fetchBytes hf (decodeWord_encode hi)

end Machine
end Sys2Proof

/-! ## Completion of the Zvzip instructions

Every legal Zvzip instruction completes in a ready state that satisfies the invariants, and what it
writes is what the shared rules say (40_vector_common.md R73 to R86); and its completion depends on
no scalar state. -/

namespace Sys2Proof.Machine

/-- A legal Zvzip instruction in a ready state completes, and writes the destination of its shape with
its result. -/
theorem exec_zvzip_completes {i : Instr} {sh : DestShape} (h : i.destShape = some sh) {s : State}
    {st : Setting} (hi : s.Inv) (hr : Ready s st) (hl : i.Legal st.lmul8) :
    ∃ v', exec i s = .next { s with v := v', vstart := 0, pc := s.pc + 4, draws := s.draws + 1 } ∧
      WritesDestination s v' st.sew sh.vd.toNat (sh.emulFactor * st.lmul8)
        (sh.evlFactor * s.vl.toNat) sh.vm (i.sailResult st.sew (st.vlmax s.cfg.vlen) s.v) := by
  obtain ⟨ill, plan, hexec, hill, hplan⟩ := exec_zvzip h s
  obtain ⟨hvd, hvm, hevl, hemul, hresult⟩ := hplan st
  have hlegal : ill st = false := (hill st hr.isLmul8).2 hl
  refine ⟨destination s (plan st),
    hexec.trans (execZvzip_legal i ill s plan hr hlegal (hr.inside hi)), ?_⟩
  have hw := destination_writes s (plan st) (hr.sew_dvd hi) (isSew_pos hr.isSew) (vlen_pos hi.cfg)
    (by rw [hvd, hemul]; exact legal_dest_fits h hr.isLmul8 hl)
  rwa [hvd, hvm, hevl, hemul, hresult] at hw

/-- Settles O14: `vpairo.vv` is the shared template at the shape of `LMUL` and `VL`. -/
theorem vpairoPairsOddElements : Obligations.VpairoPairsOddElements := by
  intro s st vd vs2 vs1 vm hi hr hl
  have h := exec_zvzip_completes (i := .vpairoVV vd vs2 vs1 vm) (sh := ⟨vd, vm, 1, 1⟩) rfl hi hr hl
  rwa [Nat.one_mul, Nat.one_mul] at h

/-! ### Scalar state -/

/-- The state with other integer registers, memory, `vxrm` and `vxsat`. -/
def State.withScalars (s : State) (x : XRegs s.cfg.xlen) (m : Memory) (rm : BitVec 2)
    (sat : BitVec 1) : State :=
  { s with x := x, mem := m, vxrm := rm, vxsat := sat }

/-- The retired state determines the register file it was retired with. -/
theorem retire_injective {s : State} {v v' : VRegs s.cfg.vlen} (h : retire s v = retire s v') :
    v = v' := by
  injection h

section
variable {s : State} (x : XRegs s.cfg.xlen) (m : Memory) (rm : BitVec 2) (sat : BitVec 1)

/-- The gate and the destination read no scalar state: the template completes alike with any. -/
theorem execZvzip_withScalars {i : Instr} {ill : Setting → Bool}
    {plan : (st : Setting) → Plan s.cfg.vlen st.sew} {v' : VRegs s.cfg.vlen}
    (h : execZvzip i ill s plan = .next (retire s v')) :
    execZvzip i ill (s.withScalars x m rm sat) plan =
      .next (retire (s.withScalars x m rm sat) v') := by
  obtain ⟨st, hr, hlegal, hinside, ht⟩ := execZvzip_next i ill s plan h
  have hready : Ready (s.withScalars x m rm sat) st := hr
  rw [retire_injective ht]
  exact execZvzip_legal i ill (s.withScalars x m rm sat) plan hready hlegal hinside

/-- A Zvzip instruction that completes does so with any scalar state, and writes the same registers. -/
theorem exec_zvzip_withScalars {i : Instr} (hz : i.destShape ≠ none) {v' : VRegs s.cfg.vlen}
    (h : exec i s = .next (retire s v')) :
    exec i (s.withScalars x m rm sat) = .next (retire (s.withScalars x m rm sat) v') := by
  cases i with
  | vzipVV vd vs2 vs1 vm => exact execZvzip_withScalars x m rm sat h
  | vunzipeV vd vs2 vm => exact execZvzip_withScalars x m rm sat h
  | vunzipoV vd vs2 vm => exact execZvzip_withScalars x m rm sat h
  | vpaireVV vd vs2 vs1 vm => exact execZvzip_withScalars x m rm sat h
  | vpairoVV vd vs2 vs1 vm => exact execZvzip_withScalars x m rm sat h
  | vsetvli rd rs1 vtypei => exact absurd rfl hz
  | vsetivli rd uimm vtypei => exact absurd rfl hz
  | vsetvl rd rs1 rs2 => exact absurd rfl hz

end

/-- Settles O30: of the fields `State.withScalars` replaces the template reads none. -/
theorem zvzipIgnoresScalarState : Obligations.ZvzipIgnoresScalarState :=
  fun _ _ _ x m rm sat hz h => exec_zvzip_withScalars x m rm sat hz h

end Sys2Proof.Machine

/-! ## Granted requests of the context instructions

A context instruction with a granted request and a requested length: the exact next state, with a
new `vl` that R112 allows (44_context_vset.md R111, R112). -/

namespace Sys2Proof.Machine

/-- A granted request has no reserved bit set, so `vtype` becomes the request itself. -/
theorem vtypeFrom_of_granted {c : Config} (hc : c.WF) {nv : BitVec c.xlen} {st : Setting}
    (hg : RequestGranted c nv st) : vtypeFrom nv = nv := by
  have hxlen : 8 ≤ c.xlen := by rcases hc.1 with h | h <;> omega
  exact vtypeFrom_of_noReserved hxlen nv ((hasReservedBits_false_iff nv).2 hg.1)

/-- The shared operation at a granted request and an AVL of `n` elements. -/
theorem execVset_granted {s : State} {st : Setting} {nv : BitVec s.cfg.xlen} (i : Instr)
    (rd : RegNum) (n : Nat) (hc : s.cfg.WF) (he : s.vectorEnabled = true)
    (hg : RequestGranted s.cfg nv st) :
    ∃ vl, NewVlAllowed n (st.vlmax s.cfg.vlen) vl ∧
      execVset i rd (.value n) s nv = .next
        { s with
          vtype := nv, vl := BitVec.ofNat s.cfg.xlen vl, x := xAfter s rd vl
          vstart := 0, pc := s.pc + 4 } := by
  refine ⟨newVl n (st.vlmax s.cfg.vlen), newVl_allowed n _, ?_⟩
  rw [execVset_value i rd s nv he ((requestGranted_iff s.cfg nv st).1 hg) n,
    vtypeFrom_of_granted hc hg]
  rfl

/-- Settles O31: outside the keep form the AVL is a requested length. -/
theorem vsetvliSetsVtypeAndVl : Obligations.VsetvliSetsVtypeAndVl := by
  intro s st rd rs1 vtypei hc he hg hform
  rw [exec, execVsetvli, avlOf_value s rd rs1 hform]
  exact execVset_granted _ rd _ hc he hg

/-- Settles O32: the AVL is the immediate. -/
theorem vsetivliSetsVtypeAndVl : Obligations.VsetivliSetsVtypeAndVl := by
  intro s st rd uimm vtypei hc he hg
  rw [exec_vsetivli]
  exact execVset_granted _ rd _ hc he hg

/-- Settles O33: as `vsetvli`, with the request in `x[rs2]`. -/
theorem vsetvlSetsVtypeAndVl : Obligations.VsetvlSetsVtypeAndVl := by
  intro s st rd rs1 rs2 hc he hg hform
  rw [exec, execVsetvl, avlOf_value s rd rs1 hform]
  exact execVset_granted _ rd _ hc he hg

end Sys2Proof.Machine

/-! ## The machine's invariants

Every step retires a Zvzip instruction or sets `vtype` and `vl`, and both keep the invariants of a
launch state (10_state.md R35). -/

namespace Sys2Proof.Machine

theorem xlen_ge_32 {c : Config} (hc : c.WF) : 32 ≤ c.xlen := by
  rcases hc.1 with h | h <;> omega

/-- A new `vl` is at most `VLMAX` (44_context_vset.md R112). -/
theorem newVl_le_vlmax (avl vlmax : Nat) : newVl avl vlmax ≤ vlmax := by
  obtain ⟨hkeep, hcap, hmid⟩ := newVl_allowed avl vlmax
  omega

/-- With `vill = 0` a supported setting and a `vl` of at most its `VLMAX` are consistent. -/
theorem vtypeConsistent_of_setting {s : State} {st : Setting} (hvill : s.vill = false)
    (hq : requestedSetting s.cfg s.vtype = some st) (hvl : s.vl.toNat ≤ st.vlmax s.cfg.vlen) :
    s.VtypeConsistent := by
  refine ⟨fun h => Bool.noConfusion (hvill.symm.trans h), fun _ => ?_⟩
  rw [hq]
  exact hvl

section
variable {s : State} (rd : RegNum)

@[simp] theorem setVl_vill (vt : BitVec s.cfg.xlen) (n : Nat) :
    (setVl s rd vt n).vill = vt.getLsbD (s.cfg.xlen - 1) := rfl

/-- `vill` alone with `vl = 0` is consistent. -/
theorem vtypeConsistent_setVl_vill (hc : s.cfg.WF) :
    (setVl s rd (villValue s.cfg.xlen) 0).VtypeConsistent := by
  have hxlen := xlen_ge_32 hc
  have hvill : (setVl s rd (villValue s.cfg.xlen) 0).vill = true := by
    rw [setVl_vill, villValue_getLsbD (by omega), decide_eq_true rfl]
  exact ⟨fun _ => ⟨rfl, rfl⟩, fun h => Bool.noConfusion (hvill.symm.trans h)⟩

/-- A granted request with the `vl` chosen for it is consistent. -/
theorem vtypeConsistent_setVl_granted (hc : s.cfg.WF) {nv : BitVec s.cfg.xlen} {st : Setting}
    (hq : requestedSetting s.cfg nv = some st) (avl : Nat) :
    (setVl s rd (vtypeFrom nv) (newVl avl (st.vlmax s.cfg.vlen))).VtypeConsistent := by
  have hxlen := xlen_ge_32 hc
  have hvill : (setVl s rd (vtypeFrom nv) (newVl avl (st.vlmax s.cfg.vlen))).vill = false := by
    rw [setVl_vill, vtypeFrom_getLsbD (by omega), decide_eq_false (by omega), Bool.false_and]
  have hvtype : vtypeFrom nv = nv := vtypeFrom_of_granted hc ((requestGranted_iff _ _ _).2 hq)
  have hvl : (BitVec.ofNat s.cfg.xlen (newVl avl (st.vlmax s.cfg.vlen))).toNat ≤
      st.vlmax s.cfg.vlen := by
    rw [BitVec.toNat_ofNat]
    exact (Nat.mod_le _ _).trans (newVl_le_vlmax _ _)
  exact vtypeConsistent_of_setting hvill ((congrArg (requestedSetting s.cfg) hvtype).trans hq) hvl

theorem setVl_inv (hi : s.Inv) {vt : BitVec s.cfg.xlen} {n : Nat}
    (hvt : (setVl s rd vt n).VtypeConsistent) : (setVl s rd vt n).Inv where
  cfg := hi.cfg
  vtype := hvt
  vstart := by simpa using vlen_pos hi.cfg
  x0 := (writeX_place_zero s rd _).trans hi.x0
  memWf := hi.memWf
  memBound := hi.memBound

theorem retire_inv (hi : s.Inv) (v' : VRegs s.cfg.vlen) : (retire s v').Inv where
  cfg := hi.cfg
  vtype := hi.vtype
  vstart := by simpa using vlen_pos hi.cfg
  x0 := hi.x0
  memWf := hi.memWf
  memBound := hi.memBound

end

theorem exec_inv {i : Instr} {s t : State} (hi : s.Inv) (h : exec i s = .next t) : t.Inv := by
  obtain ⟨v', rfl⟩ | ⟨rd, rfl | ⟨nv, st, n, hq, rfl⟩⟩ := exec_next h
  · exact retire_inv hi v'
  · exact setVl_inv rd hi (vtypeConsistent_setVl_vill rd hi.cfg)
  · exact setVl_inv rd hi (vtypeConsistent_setVl_granted rd hi.cfg hq n)

/-- Settles O40: a step is one execution, which retires or sets `vtype` and `vl`, and both keep the
invariants. -/
theorem everyStepKeepsTheInvariants : Obligations.EveryStepKeepsTheInvariants := by
  intro s t hi h
  obtain ⟨i, hexec⟩ := step_next h
  exact exec_inv hi hexec

/-- Settles O41: neither retiring nor setting `vtype` and `vl` writes these fields. -/
theorem stepKeepsProgramAndParameters : Obligations.StepKeepsProgramAndParameters := by
  intro s t h
  obtain ⟨i, hexec⟩ := step_next h
  obtain ⟨v', rfl⟩ | ⟨rd, rfl | ⟨nv, st, n, -, rfl⟩⟩ := exec_next hexec
  · exact ⟨rfl, rfl, rfl, rfl, rfl⟩
  · exact ⟨rfl, rfl, rfl, rfl, rfl⟩
  · exact ⟨rfl, rfl, rfl, rfl, rfl⟩

end Sys2Proof.Machine

/-! ## Frames

Which fields, registers and bytes an instruction leaves unchanged: a Zvzip instruction writes vector
registers and no integer register, a context instruction `vtype`, `vl` and `x[rd]`
(10_state.md R23, R24, R30, R33). -/

namespace Sys2Proof.Machine

/-- An instruction is a Zvzip instruction, which has a destination, or a context instruction. -/
theorem destShape_or_vsetRd (i : Instr) :
    (∃ sh, i.destShape = some sh) ∨ ∃ rd, i.vsetRd = some rd := by
  cases i with
  | vzipVV vd vs2 vs1 vm => exact .inl ⟨_, rfl⟩
  | vunzipeV vd vs2 vm => exact .inl ⟨_, rfl⟩
  | vunzipoV vd vs2 vm => exact .inl ⟨_, rfl⟩
  | vpaireVV vd vs2 vs1 vm => exact .inl ⟨_, rfl⟩
  | vpairoVV vd vs2 vs1 vm => exact .inl ⟨_, rfl⟩
  | vsetvli rd rs1 vtypei => exact .inr ⟨_, rfl⟩
  | vsetivli rd uimm vtypei => exact .inr ⟨_, rfl⟩
  | vsetvl rd rs1 rs2 => exact .inr ⟨_, rfl⟩

/-- A Zvzip instruction that completes retires. -/
theorem exec_zvzip_retires {i : Instr} {sh : DestShape} (h : i.destShape = some sh) {s t : State}
    (hn : exec i s = .next t) : ∃ v', t = retire s v' := by
  obtain ⟨ill, plan, hexec, -, -⟩ := exec_zvzip h s
  obtain ⟨st, -, -, -, ht⟩ := execZvzip_next i ill s plan (hexec.symm.trans hn)
  exact ⟨_, ht⟩

/-- A context instruction that completes sets `vtype`, `vl` and `x[rd]`. -/
theorem exec_vset_setVl {i : Instr} {rd : RegNum} (h : i.vsetRd = some rd) {s t : State}
    (hn : exec i s = .next t) : ∃ vt n, t = setVl s rd vt n := by
  obtain ⟨avl, nv, hexec⟩ := exec_vset h s
  obtain ⟨-, ⟨-, ht⟩ | ⟨st, n, -, -, ht⟩⟩ := execVset_next i rd avl s nv (hexec.symm.trans hn)
  · exact ⟨_, _, ht⟩
  · exact ⟨_, _, ht⟩

/-- After a context instruction `x[rd]` reads the new `vl`, unless it is `x0`; every other integer
register reads as before. -/
theorem readX_setVl (s : State) (rd : RegNum) (vt : BitVec s.cfg.xlen) (n : Nat) (m : RegNum) :
    (setVl s rd vt n).readX m =
      if m = rd ∧ rd ≠ 0 then BitVec.ofNat s.cfg.xlen n else s.readX m := by
  by_cases hm : m = 0
  · subst hm
    rw [if_neg fun h => h.2 h.1.symm]
    exact (readX_zero _).trans (readX_zero s).symm
  · rw [State.readX, if_neg hm]
    by_cases hrd : m = rd
    · subst hrd
      rw [if_pos ⟨rfl, hm⟩]
      exact writeX_self s m _ hm
    · rw [if_neg fun h => hrd h.1, State.readX, if_neg hm]
      exact writeX_other s rd _ m.toNat m.isLt fun h => hrd (BitVec.eq_of_toNat_eq h)

/-- Settles O42: a Zvzip instruction retires, which writes no scalar register but `vstart` and `pc`,
and a context instruction writes no vector register. -/
theorem whoWritesVlVtypeAndVectorRegisters : Obligations.WhoWritesVlVtypeAndVectorRegisters := by
  intro i s t h
  obtain ⟨sh, hsh⟩ | ⟨rd, hrd⟩ := destShape_or_vsetRd i
  · obtain ⟨v', rfl⟩ := exec_zvzip_retires hsh h
    refine ⟨?_, fun _ => by simp [hsh]⟩
    rintro (hvl | hvtype | ⟨n, hx⟩)
    · exact absurd rfl hvl
    · exact absurd rfl hvtype
    · exact absurd rfl hx
  · obtain ⟨vt, n, rfl⟩ := exec_vset_setVl hrd h
    exact ⟨fun _ => by simp [hrd], fun ⟨_, hv⟩ => absurd rfl hv⟩

/-- Settles O22: the instruction retires with a register file that R73 to R78 and R83 describe. -/
theorem zvzipFrame : Obligations.ZvzipFrame := by
  intro i sh s t hsh hi h
  obtain ⟨st, v', hr, -, rfl, houtside, -⟩ := exec_zvzip_next hsh hi h
  refine ⟨v', rfl, fun st' hst' => ?_, fun _ => rfl⟩
  obtain rfl : st = st' := Option.some.inj (hr.2.2.2.symm.trans hst')
  exact houtside

/-- Settles O37: the instruction sets `vtype`, `vl` and `x[rd]`, and a write to `x0` is discarded. -/
theorem vsetFrame : Obligations.VsetFrame := by
  intro i rd s t hrd h
  obtain ⟨vt, n, rfl⟩ := exec_vset_setVl hrd h
  refine ⟨vt, BitVec.ofNat s.cfg.xlen n, s.writeX rd (BitVec.ofNat s.cfg.xlen n), rfl,
    fun m hm hne => writeX_other s rd _ m hm hne, writeX_place_zero s rd _, readX_zero _,
    fun m => ?_, fun _ => rfl⟩
  rw [readX_setVl]
  exact apply_ite BitVec.toNat _ _ _

/-- The shared operation at a request that is not granted. -/
theorem execVset_ungranted {s : State} {nv : BitVec s.cfg.xlen} (i : Instr) (rd : RegNum)
    (avl : Avl) (he : s.vectorEnabled = true) (hg : ∀ st, ¬ RequestGranted s.cfg nv st) :
    execVset i rd avl s nv = .next
      { s with
        vtype := BitVec.ofNat s.cfg.xlen (2 ^ (s.cfg.xlen - 1)), vl := 0, x := xAfter s rd 0
        vstart := 0, pc := s.pc + 4 } := by
  rw [execVset_unsupported i rd avl s nv he (requestedSetting_none hg), villValue_eq]
  rfl

/-- Settles O34: all three are the shared operation, whatever the AVL. -/
theorem ungrantedRequestSetsVill : Obligations.UngrantedRequestSetsVill := by
  intro s rd _ he
  refine ⟨fun rs1 vtypei hg => ?_, fun uimm vtypei hg => ?_, fun rs1 rs2 hg => ?_⟩
  · exact execVset_ungranted _ rd _ he hg
  · exact (exec_vsetivli s rd uimm vtypei).trans (execVset_ungranted _ rd _ he hg)
  · exact execVset_ungranted _ rd _ he hg

end Sys2Proof.Machine

/-! ## The vector CSRs at their addresses (10_state.md R23 to R29) -/

namespace Sys2Proof.Machine

/-- `VLEN` is a power of two (00_scope.md R3), so its low bits are a mask. -/
theorem vlen_eq_two_pow {c : Config} (hc : c.WF) : ∃ k ≤ 16, c.vlen = 2 ^ k := by
  have h : ∀ n ∈ Config.vlenValues, ∃ k ≤ 16, n = 2 ^ k := by decide
  exact h _ hc.2.1

/-- A write of `vstart` keeps the low `log2(VLEN)` bits of the value (R26). -/
theorem ofNat_mod_vlen {c : Config} (hc : c.WF) (val : BitVec c.xlen) :
    BitVec.ofNat c.xlen (val.toNat % c.vlen) = val &&& BitVec.ofNat c.xlen (c.vlen - 1) := by
  obtain ⟨k, hk, hv⟩ := vlen_eq_two_pow hc
  have hpow : 2 ^ k ≤ 2 ^ c.xlen := Nat.pow_le_pow_right (by decide) (hk.trans (by
    have := xlen_ge_32 hc
    omega))
  have hmask : (2 ^ k - 1) % 2 ^ c.xlen = 2 ^ k - 1 :=
    Nat.mod_eq_of_lt (by have := Nat.two_pow_pos k; omega)
  apply BitVec.eq_of_toNat_eq
  rw [hv, BitVec.toNat_and, BitVec.toNat_ofNat, BitVec.toNat_ofNat, hmask,
    Nat.and_two_pow_sub_one_eq_mod]
  exact Nat.mod_eq_of_lt ((Nat.mod_le _ _).trans_lt val.isLt)

/-- `vcsr` is `{vxrm, vxsat}` (R28). -/
theorem vcsr_toNat (s : State) : s.vcsr.toNat = 2 * s.vxrm.toNat + s.vxsat.toNat := by
  rw [State.vcsr, BitVec.toNat_append, ← Nat.shiftLeft_add_eq_or_of_lt s.vxsat.isLt,
    Nat.shiftLeft_eq]
  omega

/-- With the unit off every access is rejected (R29). -/
theorem readCsr_off {s : State} (he : s.vectorEnabled = false) (a : BitVec 12) :
    s.readCsr a = none := by
  rw [State.readCsr, he]
  rfl

/-- Settles O43: the addresses differ, and the bits of `vstart` that can be written are the low bits
of the value because `VLEN` is a power of two. -/
theorem vectorCsrsAtTheirAddresses : Obligations.VectorCsrsAtTheirAddresses := by
  intro s hc
  refine ⟨fun he => ?_, fun he => ⟨readCsr_off he, fun val => ?_⟩⟩
  · have hwrite : ∀ val : BitVec s.cfg.xlen, s.writeVstart val =
        some { s with vstart := val &&& BitVec.ofNat s.cfg.xlen (s.cfg.vlen - 1) } := fun val => by
      rw [writeVstart_eq, if_pos he, State.setVstart, ofNat_mod_vlen hc]
    simp [State.readCsr, he, State.vlenb, ← vcsr_toNat, hwrite]
  · rw [writeVstart_eq, he]
    rfl

end Sys2Proof.Machine

/-! ## What a Zvzip instruction reads

A Zvzip instruction computes each register of its destination group from that register, its source
groups and, if masked, `v0`: register files that agree there give the same destination group
(10_state.md R33). -/

namespace Sys2Proof.Machine

/-- The register files agree on the group's registers. -/
def AgreeOn {vlen : Nat} (w v : VRegs vlen) (r emul8 : Nat) : Prop :=
  ∀ n < 32, InGroup r emul8 n → vreg w n = vreg v n

section
variable {vlen sew : Nat} {v w : VRegs vlen}

/-- There is no register above `v31` to differ in. -/
theorem vreg_of_ge {n : Nat} (h : 32 ≤ n) : vreg v n = 0 := dif_neg (by omega)

/-- An element of a group is read from the group's registers. -/
theorem getVelem_of_agreeOn {r emul8 : Nat} (h : AgreeOn w v r emul8) (hd : sew ∣ vlen)
    (hw : 0 < sew) (hv : 0 < vlen) {k : Nat} (hk : k < groupCapacity vlen sew emul8) :
    getVelem w r sew k = getVelem v r sew k := by
  have hreg : k / (vlen / sew) < max 1 (emul8 / 8) := elem_reg_lt hd hw hv emul8 k hk
  rw [getVelem, getVelem]
  congr 1
  generalize k / (vlen / sew) = q at hreg ⊢
  by_cases hn : r + q < 32
  · exact h _ hn (by omega)
  · rw [vreg_of_ge (by omega), vreg_of_ge (by omega)]

/-- Writing the same elements leaves register `n` alike if it was alike before. -/
theorem vreg_writeElems_congr {base n : Nat} (hn : n < 32) (h : vreg w n = vreg v n)
    {new new' : Nat → BitVec sew} :
    ∀ {count : Nat}, (∀ k < count, new' k = new k) →
      vreg (writeElems w base sew new' count) n = vreg (writeElems v base sew new count) n
  | 0, _ => h
  | c + 1, hnew => by
    have ih := vreg_writeElems_congr hn h (base := base) (count := c) fun k hk => hnew k (by omega)
    rw [writeElems, writeElems, hnew c (by omega)]
    by_cases hreg : n = base + c / (vlen / sew)
    · subst hreg
      rw [vreg_setVelem_self _ _ _ _ hn, vreg_setVelem_self _ _ _ _ hn, ih]
    · rw [vreg_setVelem_other _ _ _ _ _ hreg, vreg_setVelem_other _ _ _ _ _ hreg, ih]

end

/-- The plan of a Zvzip instruction: R79's row and the instruction's result. -/
def zvzipPlan (i : Instr) (sh : DestShape) (s : State) (st : Setting) : Plan s.cfg.vlen st.sew where
  vd := sh.vd.toNat
  vm := sh.vm
  evl := sh.evlFactor * s.vl.toNat
  destEmul8 := sh.emulFactor * st.lmul8
  result := i.sailResult st.sew (st.vlmax s.cfg.vlen)

theorem PlanMatches.eq_zvzipPlan {i : Instr} {sh : DestShape} {s : State} {st : Setting}
    {p : Plan s.cfg.vlen st.sew} (h : PlanMatches i sh s st p) : p = zvzipPlan i sh s st := by
  cases p
  obtain ⟨rfl, rfl, rfl, rfl, rfl⟩ := h
  rfl

/-- A legal Zvzip instruction in a ready state writes the destination of its plan, free draws
included. -/
theorem exec_zvzip_plan {i : Instr} {sh : DestShape} (h : i.destShape = some sh) {s : State}
    {st : Setting} (hi : s.Inv) (hr : Ready s st) (hl : i.Legal st.lmul8) :
    exec i s = .next (retire s (destination s (zvzipPlan i sh s st))) := by
  obtain ⟨ill, plan, hexec, hill, hplan⟩ := exec_zvzip h s
  rw [hexec, execZvzip_legal i ill s plan hr ((hill st hr.isLmul8).2 hl) (hr.inside hi),
    (hplan st).eq_zvzipPlan]

/-- The result of a body element reads no register outside the source groups. -/
theorem sailResult_of_agreeOn {i : Instr} {sh : DestShape} (h : i.destShape = some sh) {vlen : Nat}
    {st : Setting} {v w : VRegs vlen} (hd : st.sew ∣ vlen) (hw : 0 < st.sew) (hv : 0 < vlen)
    (hm : IsLmul8 st.lmul8) (hsrc : ∀ g ∈ i.sourceGroups st.lmul8, AgreeOn w v g.1 g.2)
    {vl k : Nat} (hvl : vl ≤ st.vlmax vlen) (hk : k < sh.evlFactor * vl) :
    i.sailResult st.sew (st.vlmax vlen) w k = i.sailResult st.sew (st.vlmax vlen) v k := by
  have hone : ∀ {r : Nat}, AgreeOn w v r st.lmul8 → ∀ {j : Nat}, j < st.vlmax vlen →
      getVelem w r st.sew j = getVelem v r st.sew j := fun hr j hj => by
    have hcap := vlmax_le_capacity (vlen := vlen) hm 1 (.inl rfl)
    rw [Nat.one_mul, Nat.one_mul] at hcap
    exact getVelem_of_agreeOn hr hd hw hv (hj.trans_le hcap)
  have htwo : ∀ {r : Nat}, AgreeOn w v r (2 * st.lmul8) → ∀ {j : Nat}, j < 2 * st.vlmax vlen →
      getVelem w r st.sew j = getVelem v r st.sew j := fun hr j hj =>
    getVelem_of_agreeOn hr hd hw hv (hj.trans_le (vlmax_le_capacity hm 2 (.inr rfl)))
  cases i with
  | vzipVV vd vs2 vs1 vm =>
    cases h
    simp only [Instr.sourceGroups, List.forall_mem_cons] at hsrc
    obtain ⟨h2, h1, -⟩ := hsrc
    have hj : k / 2 < st.vlmax vlen := by simp only at hk; omega
    rw [Instr.sailResult, Instr.sailResult, hone h2 hj, hone h1 hj]
  | vunzipeV vd vs2 vm =>
    cases h
    exact htwo (hsrc _ (List.mem_singleton_self _)) (by simp only at hk; omega)
  | vunzipoV vd vs2 vm =>
    cases h
    exact htwo (hsrc _ (List.mem_singleton_self _)) (by simp only at hk; omega)
  | vpaireVV vd vs2 vs1 vm =>
    cases h
    simp only [Instr.sourceGroups, List.forall_mem_cons] at hsrc
    obtain ⟨h2, h1, -⟩ := hsrc
    have hj : k < st.vlmax vlen := by simp only at hk; omega
    rw [Instr.sailResult, Instr.sailResult, hone h2 hj, hone h1 (by omega : k - 1 < _)]
  | vpairoVV vd vs2 vs1 vm =>
    cases h
    simp only [Instr.sourceGroups, List.forall_mem_cons] at hsrc
    obtain ⟨h2, h1, -⟩ := hsrc
    by_cases hk2 : k % 2 = 0
    · simp only [Instr.sailResult, hk2, if_true]
      exact ite_congr rfl (fun _ => rfl) fun hj => hone h2 (Nat.lt_of_not_le hj)
    · simp only [Instr.sailResult, hk2, if_false]
      exact ite_congr rfl (fun _ => rfl) fun hj => hone h1 (Nat.lt_of_not_le hj)
  | vsetvli rd rs1 vtypei => cases h
  | vsetivli rd uimm vtypei => cases h
  | vsetvl rd rs1 rs2 => cases h

/-- The new value of an element of the destination reads its old value, the mask bit if masked, and
the result if it is a body element. -/
theorem newElem_congr {s : State} {sew : Nat} {p : Plan s.cfg.vlen sew} {w : VRegs s.cfg.vlen}
    {k : Nat} (hold : getVelem w p.vd sew k = getVelem s.v p.vd sew k)
    (hmask : p.vm = false → vreg w 0 = vreg s.v 0)
    (hresult : k < p.evl → p.result w k = p.result s.v k) :
    newElem { s with v := w } p k = newElem s p k := by
  have hactive : (p.vm || maskBit w k) = (p.vm || maskBit s.v k) := by
    cases hvm : p.vm with
    | true => rfl
    | false => rw [maskBit, maskBit, hmask hvm]
  unfold newElem
  dsimp only
  rw [hold, hactive]
  by_cases hk : k < p.evl
  · rw [hresult hk]
    rfl
  · rw [if_neg hk, if_neg hk]
    rfl

/-- Register files that agree on the destination group and give the same new elements give the same
destination group. -/
theorem destination_congr {s : State} {sew : Nat} {p : Plan s.cfg.vlen sew} {w : VRegs s.cfg.vlen}
    (hdest : AgreeOn w s.v p.vd p.destEmul8)
    (hnew : ∀ k < groupCapacity s.cfg.vlen sew p.destEmul8,
      newElem { s with v := w } p k = newElem s p k) :
    AgreeOn (destination { s with v := w } p) (destination s p) p.vd p.destEmul8 := by
  intro n hn hg
  unfold destination
  split
  · exact vreg_writeElems_congr hn (hdest n hn hg) hnew
  · exact hdest n hn hg

/-- Settles O29: from the other register file the instruction is legal and ready as before, and each
new element of the destination is the same. -/
theorem zvzipReadsOnlyItsOperands : Obligations.ZvzipReadsOnlyItsOperands := by
  intro i sh s st v' w hsh hi hst hagree h
  obtain ⟨st', v'', hr, hl, -, -⟩ := exec_zvzip_next hsh hi h
  obtain rfl : st' = st := Option.some.inj (hr.2.2.2.symm.trans hst)
  have hv' : destination s (zvzipPlan i sh s st') = v' :=
    retire_injective (Host.Outcome.next.inj ((exec_zvzip_plan hsh hi hr hl).symm.trans h))
  have hiw : ({ s with v := w } : State).Inv :=
    ⟨hi.cfg, hi.vtype, hi.vstart, hi.x0, hi.memWf, hi.memBound⟩
  refine ⟨destination { s with v := w } (zvzipPlan i sh s st'),
    exec_zvzip_plan hsh hiw hr hl, ?_⟩
  have hdest : AgreeOn w s.v sh.vd.toNat (sh.emulFactor * st'.lmul8) :=
    fun n hn hg => hagree n hn (.inl hg)
  have hmask : sh.vm = false → vreg w 0 = vreg s.v 0 :=
    fun hvm => hagree 0 (by decide) (.inr (.inl ⟨hvm, rfl⟩))
  have hsrc : ∀ g ∈ i.sourceGroups st'.lmul8, AgreeOn w s.v g.1 g.2 :=
    fun g hg n hn hin => hagree n hn (.inr (.inr ⟨g, hg, hin⟩))
  have hd := hr.sew_dvd hi
  have hsew := isSew_pos hr.isSew
  have hvlen := vlen_pos hi.cfg
  rw [← hv']
  refine destination_congr hdest fun k hk =>
    newElem_congr (p := zvzipPlan i sh s st') ?_ hmask fun hevl => ?_
  · exact getVelem_of_agreeOn hdest hd hsew hvlen hk
  · exact sailResult_of_agreeOn hsh hd hsew hvlen hr.isLmul8 hsrc (hr.requested hi).2 hevl

end Sys2Proof.Machine

/-! ## Instruction memory

The decoder reads an instruction back from its stored bytes, and a word stored at `pc` is the word the
next step fetches and runs, across the end of the address space too (20_memory.md R40 to R44). -/

namespace Sys2Proof.Machine

/-- Settles O2: decoding the stored bytes is decoding the word, which is the encoding of the
instruction. -/
theorem decodeOfEncodeIsTheInstruction : Obligations.DecodeOfEncodeIsTheInstruction := by
  intro i hi rest
  rw [decode_insnBytes, decodeWord_encode hi]

/-! ### Bytes stored at consecutive addresses -/

/-- The `k`-th address after `a + 1` is the `k + 1`-st after `a`. -/
theorem add_one_add_ofNat {xlen : Nat} (a : BitVec xlen) (k : Nat) :
    a + 1 + BitVec.ofNat xlen k = a + BitVec.ofNat xlen (k + 1) := by
  rw [BitVec.add_assoc, Nat.add_comm k 1, BitVec.ofNat_add]
  rfl

/-- Fewer than `2^XLEN` addresses on, the address space has not come back to where it began. -/
theorem add_ofNat_ne_self {xlen : Nat} (a : BitVec xlen) {k : Nat} (h0 : 0 < k) (hk : k < 2 ^ xlen) :
    (a + BitVec.ofNat xlen k).toNat ≠ a.toNat := by
  intro h
  have hzero : BitVec.ofNat xlen k = 0#xlen := BitVec.add_right_eq_self.1 (BitVec.eq_of_toNat_eq h)
  have hmod := congrArg BitVec.toNat hzero
  rw [BitVec.toNat_ofNat, Nat.mod_eq_of_lt hk, BitVec.toNat_zero] at hmod
  omega

theorem Memory.read_writeBytes_other {xlen : Nat} {j : Nat} {bs : List Byte} (m : Memory)
    (a : BitVec xlen) (h : ∀ k < bs.length, j ≠ (a + BitVec.ofNat xlen k).toNat) :
    Memory.read (Memory.writeBytes m a bs) j = Memory.read m j := by
  induction bs generalizing m a with
  | nil => rfl
  | cons b bs ih =>
    have hhead : j ≠ a.toNat := by simpa using h 0 (Nat.succ_pos _)
    have htail : ∀ k < bs.length, j ≠ (a + 1 + BitVec.ofNat xlen k).toNat := fun k hk => by
      rw [add_one_add_ofNat]
      exact h (k + 1) (Nat.succ_lt_succ hk)
    rw [Memory.writeBytes, ih _ _ htail, Memory.read_write_other _ _ _ _ hhead]

/-- Bytes that fit the address space are read back, wherever they wrap. -/
theorem Memory.read_writeBytes_same {xlen : Nat} {bs : List Byte} (m : Memory) (a : BitVec xlen)
    (hfit : bs.length ≤ 2 ^ xlen) {k : Nat} (hk : k < bs.length) :
    Memory.read (Memory.writeBytes m a bs) (a + BitVec.ofNat xlen k).toNat = bs[k]? := by
  induction bs generalizing m a k with
  | nil => cases hk
  | cons b bs ih =>
    rw [List.length_cons] at hfit hk
    cases k with
    | zero =>
      have hlater : ∀ k < bs.length, a.toNat ≠ (a + 1 + BitVec.ofNat xlen k).toNat := fun k hk => by
        rw [add_one_add_ofNat]
        exact (add_ofNat_ne_self a k.succ_pos (by omega)).symm
      rw [show a + BitVec.ofNat xlen 0 = a from BitVec.add_zero a, Memory.writeBytes,
        Memory.read_writeBytes_other _ _ hlater, Memory.read_write_same]
      rfl
    | succ k =>
      rw [Memory.writeBytes, ← add_one_add_ofNat, List.getElem?_cons_succ]
      exact ih _ _ (by omega) (by omega)

/-! ### The word at `pc` -/

/-- A byte of the placed word is what a fetch reads at its offset. -/
theorem fetchByte_placeWord {s : State} (hc : s.cfg.WF) (w : Insn) {k : Nat} (hk : k < 4) :
    (s.placeWord w).fetchByte k = (insnBytes w)[k]? := by
  have hfit : (insnBytes w).length ≤ 2 ^ s.cfg.xlen :=
    calc 4 ≤ 2 ^ 32 := by decide
      _ ≤ 2 ^ s.cfg.xlen := Nat.pow_le_pow_right (by decide) (xlen_ge_32 hc)
  exact Memory.read_writeBytes_same s.mem s.pc hfit hk

theorem fetchBytes_placeWord {s : State} (hc : s.cfg.WF) (w : Insn) :
    (s.placeWord w).fetchBytes = some (insnBytes w) := by
  have h := fun k (hk : k < 4) => fetchByte_placeWord hc w hk
  rw [State.fetchBytes, h 0 (by decide), h 1 (by decide), h 2 (by decide), h 3 (by decide)]
  rfl

/-- Settles O6: the placed word is fetched, and a step runs the word it fetches. -/
theorem placedWordIsFetchedAndRun : Obligations.PlacedWordIsFetchedAndRun :=
  fun _ w hc =>
    ⟨fetchBytes_placeWord hc w, fun _ hw => step_of_fetchBytes (fetchBytes_placeWord hc w) hw⟩

end Sys2Proof.Machine

/-! ## Encoding what is decoded

A row's encoding of a word's operand fields is the row's fixed bits and the word's other bits, so for a
word that matches the row it is the word (30_encoding.md R51 to R59, 44_context_vset.md R110). -/

namespace Sys2Proof

/-- A row's test is the one 30_encoding.md section 3 writes. -/
theorem rowMatches_iff {w : Insn} {r : OpRow} :
    rowMatches w r = true ↔ w &&& r.mask = r.pattern := beq_iff_eq

/-- A row's fixed bits with a word's bits at every other place. -/
def OpRow.fill (r : OpRow) (w : Insn) : Insn := (w &&& ~~~r.mask) ||| r.pattern

/-- Filling a row with a word that matches it gives the word. -/
theorem OpRow.fill_of_rowMatches {w : Insn} {r : OpRow} (h : rowMatches w r = true) :
    r.fill w = w := by
  rw [OpRow.fill, ← rowMatches_iff.1 h, ← BitVec.and_or_distrib_left,
    BitVec.or_comm, BitVec.or_not_self, BitVec.and_allOnes]

/-! ### The bits of a field -/

section
variable (w : Insn) (k : Nat)

@[simp] theorem fieldVd_getElem (h : k < 5) : (fieldVd w)[k] = w.getLsbD (7 + k) :=
  BitVec.getElem_extractLsb' h

@[simp] theorem fieldVs1_getElem (h : k < 5) : (fieldVs1 w)[k] = w.getLsbD (15 + k) :=
  BitVec.getElem_extractLsb' h

@[simp] theorem fieldVs2_getElem (h : k < 5) : (fieldVs2 w)[k] = w.getLsbD (20 + k) :=
  BitVec.getElem_extractLsb' h

@[simp] theorem fieldZimm11_getElem (h : k < 11) : (fieldZimm11 w)[k] = w.getLsbD (20 + k) :=
  BitVec.getElem_extractLsb' h

@[simp] theorem fieldZimm10_getElem (h : k < 11) :
    (fieldZimm10 w)[k] = (decide (k < 10) && w.getLsbD (20 + k)) := by
  rw [fieldZimm10, BitVec.getElem_setWidth, BitVec.getLsbD_extractLsb']

end

/-! ### The encoding of a word's fields -/

section
variable (funct6 : BitVec 6) (vs1 : BitVec 5) (funct3 : BitVec 3) (w : Insn)

/-- The rows with two sources fix `funct6`, `funct3` and the opcode (R54, R57, R58). -/
theorem encodeArith_binaryFields :
    encodeArith funct6 (fieldVm w) (fieldVs2 w) (fieldVs1 w) funct3 (fieldVd w) =
      (w &&& ~~~0xFC00707F) ||| encodeArith funct6 false 0 0 funct3 0 := by
  refine BitVec.eq_of_getLsbD_eq fun k hk => ?_
  rw [BitVec.getLsbD_or, encodeArith_getLsbD, encodeArith_getLsbD]
  interval_cases k <;> simp [fieldVm]

/-- The rows with one source fix the `vs1` field too (R55, R56). -/
theorem encodeArith_unaryFields :
    encodeArith funct6 (fieldVm w) (fieldVs2 w) vs1 funct3 (fieldVd w) =
      (w &&& ~~~0xFC0FF07F) ||| encodeArith funct6 false 0 vs1 funct3 0 := by
  refine BitVec.eq_of_getLsbD_eq fun k hk => ?_
  rw [BitVec.getLsbD_or, encodeArith_getLsbD, encodeArith_getLsbD]
  interval_cases k <;> simp [fieldVm]

theorem encode_vsetvli_fields :
    encode (.vsetvli (fieldVd w) (fieldVs1 w) (fieldZimm11 w)) =
      (w &&& ~~~0x8000707F) ||| 0x00007057 := by
  refine BitVec.eq_of_getLsbD_eq fun k hk => ?_
  rw [BitVec.getLsbD_or, encode_vsetvli_getLsbD]
  interval_cases k <;> simp

theorem encode_vsetivli_fields :
    encode (.vsetivli (fieldVd w) (fieldVs1 w) (fieldZimm10 w)) =
      (w &&& ~~~0xC000707F) ||| 0xC0007057 := by
  refine BitVec.eq_of_getLsbD_eq fun k hk => ?_
  rw [BitVec.getLsbD_or, encode_vsetivli_getLsbD]
  interval_cases k <;> simp

theorem encode_vsetvl_fields :
    encode (.vsetvl (fieldVd w) (fieldVs1 w) (fieldVs2 w)) =
      (w &&& ~~~0xFE00707F) ||| 0x80007057 := by
  refine BitVec.eq_of_getLsbD_eq fun k hk => ?_
  rw [BitVec.getLsbD_or, encode_vsetvl_getLsbD]
  interval_cases k <;> simp

end

/-- Encoding the instruction built from a word's operand fields fills its row with the word. -/
theorem encode_buildInstr (op : Op) (w : Insn) :
    encode (buildInstr op w) = (buildInstr op w).row.fill w := by
  cases op with
  | vzip => exact encodeArith_binaryFields 0b111110 0b010 w
  | vunzipe => exact encodeArith_unaryFields 0b010010 0b01011 0b010 w
  | vunzipo => exact encodeArith_unaryFields 0b010010 0b01111 0b010 w
  | vpaire => exact encodeArith_binaryFields 0b001111 0b000 w
  | vpairo => exact encodeArith_binaryFields 0b001111 0b010 w
  | vsetvli => exact encode_vsetvli_fields w
  | vsetivli => exact encode_vsetivli_fields w
  | vsetvl => exact encode_vsetvl_fields w

/-- The instruction a row of the table builds is encoded by that row. -/
theorem row_buildInstr (w : Insn) : ∀ r ∈ opcodeTable, (buildInstr r.op w).row = r := by
  simp [opcodeTable, buildInstr, Instr.row]

/-- The immediate of `vsetivli` is built from ten bits, so its bit 10 is 0 (R110). -/
theorem wellFormed_buildInstr (op : Op) (w : Insn) : WellFormed (buildInstr op w) := by
  cases op with
  | vsetivli => simp [WellFormed, buildInstr, Instr.wellFormed]
  | vzip | vunzipe | vunzipo | vpaire | vpairo | vsetvli | vsetvl => rfl

/-- Settles O3: a decoded word matches a row of the table, which its instruction's encoding fills with
the word. -/
theorem encodeOfDecodeIsTheWord : Obligations.EncodeOfDecodeIsTheWord := by
  intro w i h
  obtain ⟨r, hr, hw, rfl⟩ := decodeWord_some h
  refine ⟨wellFormed_buildInstr r.op w, ?_⟩
  rw [encode_buildInstr, row_buildInstr w r hr, OpRow.fill_of_rowMatches hw]

/-! ### Rows decide -/

/-- A word that satisfies no row's test decodes to nothing (R62). -/
theorem decodeWord_eq_none {w : Insn} (h : ∀ r ∈ opcodeTable, w &&& r.mask ≠ r.pattern) :
    decodeWord w = none :=
  decodeWord_none.2 fun r hr => Bool.eq_false_iff.2 fun hw => h r hr (rowMatches_iff.1 hw)

/-- Settles O4: any two rows differ in a bit that both fix, and the decoder takes the row that
matches. -/
theorem rowsAreExclusiveAndDecide : Obligations.RowsAreExclusiveAndDecide :=
  fun _ =>
    ⟨fun _ hr _ hq hwr hwq => rowMatches_unique hr hq (rowMatches_iff.2 hwr) (rowMatches_iff.2 hwq),
      fun _ hr hw => decodeWord_of_rowMatches hr (rowMatches_iff.2 hw), decodeWord_eq_none⟩

/-- Settles O1: each word is the encoding of the instruction it stands for. -/
theorem wordsOfEachRowDecode : Obligations.WordsOfEachRowDecode :=
  ⟨decodeWord_encode (i := .vzipVV 4 2 1 true) rfl,
    decodeWord_encode (i := .vunzipeV 6 4 false) rfl,
    decodeWord_encode (i := .vunzipoV 7 4 true) rfl,
    decodeWord_encode (i := .vpaireVV 5 1 2 true) rfl,
    decodeWord_encode (i := .vpairoVV 6 1 2 false) rfl,
    decodeWord_encode (i := .vsetvli 5 0 0xD0) rfl,
    decodeWord_encode (i := .vsetivli 5 3 0x10) rfl,
    decodeWord_encode (i := .vsetvl 5 10 11) rfl⟩

namespace Machine

/-- Settles O7: the fetched word decodes to nothing, and of all a step can do only the refusal of the
word is left. -/
theorem unassignedWordIsRefused : Obligations.UnassignedWordIsRefused := by
  intro s b0 b1 b2 b3 hf hrow
  have hd := decodeWord_eq_none hrow
  obtain ⟨hnone, -⟩ | ⟨_, _, _, _, hbytes, hcase⟩ := step_cases s
  · cases hf.symm.trans hnone
  · cases hf.symm.trans hbytes
    obtain ⟨-, hrefused⟩ | ⟨i, hi, -⟩ := hcase
    · exact hrefused
    · cases hd.symm.trans hi

/-- Settles O13: `vpaire.vv` is the shared template at the shape of `LMUL` and `VL`. -/
theorem vpairePairsEvenElements : Obligations.VpairePairsEvenElements := by
  intro s st vd vs2 vs1 vm hi hr hl
  have h := exec_zvzip_completes (i := .vpaireVV vd vs2 vs1 vm) (sh := ⟨vd, vm, 1, 1⟩) rfl hi hr hl
  rwa [Nat.one_mul, Nat.one_mul] at h

end Machine
end Sys2Proof

/-! ## The classes of destination elements

A Zvzip instruction that completes leaves each element of its destination prestart, active, inactive
or tail, and an empty body writes none of them (40_vector_common.md R73 to R79, R83). -/

namespace Sys2Proof.Machine

/-- Settles O10: `vzip.vv` is the shared template at the shape of `2*LMUL` and `2*VL`. -/
theorem vzipInterleavesTheSources : Obligations.VzipInterleavesTheSources := by
  intro s st vd vs2 vs1 vm hi hr hl
  exact exec_zvzip_completes (i := .vzipVV vd vs2 vs1 vm) (sh := ⟨vd, vm, 2, 2⟩) rfl hi hr hl

/-- Settles O11: `vunzipe.v` is the shared template at the shape of `LMUL` and `VL`. -/
theorem vunzipeExtractsEvenElements : Obligations.VunzipeExtractsEvenElements := by
  intro s st vd vs2 vm hi hr hl
  have h := exec_zvzip_completes (i := .vunzipeV vd vs2 vm) (sh := ⟨vd, vm, 1, 1⟩) rfl hi hr hl
  rwa [Nat.one_mul, Nat.one_mul] at h

/-- Settles O12: as `vunzipe.v`, with the odd elements. -/
theorem vunzipoExtractsOddElements : Obligations.VunzipoExtractsOddElements := by
  intro s st vd vs2 vm hi hr hl
  have h := exec_zvzip_completes (i := .vunzipoV vd vs2 vm) (sh := ⟨vd, vm, 1, 1⟩) rfl hi hr hl
  rwa [Nat.one_mul, Nat.one_mul] at h

section
variable {s : State} {v' : VRegs s.cfg.vlen} {sew vd emul8 evl k : Nat} {vm : Bool}
  {result : Nat → BitVec sew}

/-- Prestart elements keep their value, also where the body is empty (R74, R83). -/
theorem WritesDestination.prestart (h : WritesDestination s v' sew vd emul8 evl vm result)
    (hk : k < groupCapacity s.cfg.vlen sew emul8) (hlt : k < s.vstart.toNat) :
    getVelem v' vd sew k = getVelem s.v vd sew k := by
  obtain ⟨-, hempty, hbody⟩ := h
  obtain he | he := Nat.lt_or_ge s.vstart.toNat evl
  · exact (hbody he k hk).1 hlt
  · rw [hempty he]

/-- Active body elements hold the result (R75). -/
theorem WritesDestination.active (h : WritesDestination s v' sew vd emul8 evl vm result)
    (hk : k < groupCapacity s.cfg.vlen sew emul8) (hstart : s.vstart.toNat ≤ k) (hevl : k < evl)
    (hactive : vm = true ∨ maskBit s.v k = true) : getVelem v' vd sew k = result k := by
  obtain ⟨-, -, hbody⟩ := h
  obtain ⟨-, hres, -⟩ := hbody (hstart.trans_lt hevl) k hk
  exact hres hstart hevl hactive

/-- Inactive body elements keep their value or, under `vma = 1`, may be all ones (R76). -/
theorem WritesDestination.inactive (h : WritesDestination s v' sew vd emul8 evl vm result)
    (hk : k < groupCapacity s.cfg.vlen sew emul8) (hstart : s.vstart.toNat ≤ k) (hevl : k < evl)
    (hvm : vm = false) (hmask : maskBit s.v k = false) :
    getVelem v' vd sew k = getVelem s.v vd sew k ∨
      (s.vma = true ∧ getVelem v' vd sew k = BitVec.allOnes sew) := by
  obtain ⟨-, -, hbody⟩ := h
  obtain ⟨-, -, hina, -⟩ := hbody (hstart.trans_lt hevl) k hk
  exact hina hstart hevl hvm hmask

/-- Tail elements keep their value or, under `vta = 1` with a body that is not empty, may be all
ones (R78, R83). -/
theorem WritesDestination.tail (h : WritesDestination s v' sew vd emul8 evl vm result)
    (hk : k < groupCapacity s.cfg.vlen sew emul8) (hevl : evl ≤ k) :
    getVelem v' vd sew k = getVelem s.v vd sew k ∨
      (s.vta = true ∧ getVelem v' vd sew k = BitVec.allOnes sew) := by
  obtain ⟨-, hempty, hbody⟩ := h
  obtain he | he := Nat.lt_or_ge s.vstart.toNat evl
  · obtain ⟨-, -, -, htail⟩ := hbody he k hk
    exact htail hevl
  · exact .inl (by rw [hempty he])

end

/-- A policy bit off excludes what an agnostic element may hold instead of its old value. -/
theorem undisturbed_and_agnostic {agnostic : Bool} {kept ones : Prop}
    (h : kept ∨ (agnostic = true ∧ ones)) :
    (agnostic = false → kept) ∧ (agnostic = true → kept ∨ ones) := by
  obtain hkept | ⟨hagnostic, hones⟩ := h
  · exact ⟨fun _ => hkept, fun _ => .inl hkept⟩
  · exact ⟨fun hoff => Bool.noConfusion (hagnostic.symm.trans hoff), fun _ => .inr hones⟩

/-- The factors of `LMUL` and of `VL` in a row of R79's table are the same, 1 or 2. -/
theorem destShape_factors {i : Instr} {sh : DestShape} (h : i.destShape = some sh) :
    sh.emulFactor = sh.evlFactor ∧ (sh.evlFactor = 1 ∨ sh.evlFactor = 2) := by
  cases i with
  | vzipVV vd vs2 vs1 vm => cases h; exact ⟨rfl, .inr rfl⟩
  | vunzipeV vd vs2 vm => cases h; exact ⟨rfl, .inl rfl⟩
  | vunzipoV vd vs2 vm => cases h; exact ⟨rfl, .inl rfl⟩
  | vpaireVV vd vs2 vs1 vm => cases h; exact ⟨rfl, .inl rfl⟩
  | vpairoVV vd vs2 vs1 vm => cases h; exact ⟨rfl, .inl rfl⟩
  | vsetvli rd rs1 vtypei => cases h
  | vsetivli rd uimm vtypei => cases h
  | vsetvl rd rs1 rs2 => cases h

/-- The body lies in the destination's registers: `EVL` is at most their capacity (R73, R79). -/
theorem evl_le_capacity {i : Instr} {sh : DestShape} (h : i.destShape = some sh) {s : State}
    {st : Setting} (hi : s.Inv) (hr : Ready s st) :
    sh.evlFactor * s.vl.toNat ≤
      groupCapacity s.cfg.vlen st.sew (sh.emulFactor * st.lmul8) := by
  obtain ⟨hfactors, hf⟩ := destShape_factors h
  rw [hfactors]
  exact (Nat.mul_le_mul_left _ (hr.requested hi).2).trans (vlmax_le_capacity hr.isLmul8 _ hf)

/-- `exec_zvzip_next` at the setting the state holds. -/
theorem exec_zvzip_writes {i : Instr} {sh : DestShape} (h : i.destShape = some sh) {s t : State}
    {st : Setting} (hi : s.Inv) (hst : s.setting = some st) (hn : exec i s = .next t) :
    Ready s st ∧ ∃ v', t = retire s v' ∧
      WritesDestination s v' st.sew sh.vd.toNat (sh.emulFactor * st.lmul8)
        (sh.evlFactor * s.vl.toNat) sh.vm (i.sailResult st.sew (st.vlmax s.cfg.vlen) s.v) := by
  obtain ⟨st', v', hr, -, ht, hw⟩ := exec_zvzip_next h hi hn
  obtain rfl : st' = st := Option.some.inj (hr.2.2.2.symm.trans hst)
  exact ⟨hr, v', ht, hw⟩

/-- Settles O16: the prestart class of the written destination. -/
theorem prestartElementsAreNotWritten : Obligations.PrestartElementsAreNotWritten := by
  intro i sh s t st hsh hi hst hn k hk hlt
  obtain ⟨-, v', rfl, hw⟩ := exec_zvzip_writes hsh hi hst hn
  exact hw.prestart hk hlt

/-- Settles O17: the active class; the body lies in the destination's registers. -/
theorem activeElementsHoldTheResult : Obligations.ActiveElementsHoldTheResult := by
  intro i sh s t st hsh hi hst hn k hstart hevl hactive
  obtain ⟨hr, v', rfl, hw⟩ := exec_zvzip_writes hsh hi hst hn
  exact hw.active (hevl.trans_le (evl_le_capacity hsh hi hr)) hstart hevl hactive

/-- Settles O18: the inactive class, under both settings of `vma`. -/
theorem inactiveElementsFollowVma : Obligations.InactiveElementsFollowVma := by
  intro i sh s t st hsh hi hst hn k hk hstart hevl hvm hmask
  obtain ⟨-, v', rfl, hw⟩ := exec_zvzip_writes hsh hi hst hn
  exact undisturbed_and_agnostic (hw.inactive hk hstart hevl hvm hmask)

/-- Settles O19: the tail class, under both settings of `vta`. -/
theorem tailElementsFollowVta : Obligations.TailElementsFollowVta := by
  intro i sh s t st hsh hi hst hn k hk hevl
  obtain ⟨-, v', rfl, hw⟩ := exec_zvzip_writes hsh hi hst hn
  exact undisturbed_and_agnostic (hw.tail hk hevl)

/-- Settles O20: with an empty body the register file written is the entry state's. -/
theorem emptyBodyWritesNoElement : Obligations.EmptyBodyWritesNoElement := by
  intro i sh s st hsh hi hr hl hevl
  obtain ⟨v', hexec, -, hempty, -⟩ := exec_zvzip_completes hsh hi hr hl
  rw [hexec, hempty hevl]

end Sys2Proof.Machine

/-! ## The gate and the end of an instruction

Checks 1 to 3 of 40_vector_common.md R82 fault before any operand is looked at, after a context
instruction whose request is not granted among the cases (44_context_vset.md R111); and every
instruction that completes clears `vstart` and advances `pc` (R84). -/

namespace Sys2Proof.Machine

theorem nextPc_toNat (s : State) : s.nextPc.toNat = (s.pc.toNat + 4) % 2 ^ s.cfg.xlen := by
  simp [State.nextPc]

/-- Settles O21: an instruction that completes retires or sets `vtype` and `vl`, and both end alike.
-/
theorem endOfInstructionClearsVstartAndAdvancesPc :
    Obligations.EndOfInstructionClearsVstartAndAdvancesPc := by
  intro i s
  refine ⟨fun t hn => ?_, fun f hf => ⟨_, exec_fault hf⟩⟩
  obtain ⟨v', rfl⟩ | ⟨rd, rfl | ⟨nv, st, n, -, rfl⟩⟩ := exec_next hn
  · exact ⟨rfl, rfl, nextPc_toNat s⟩
  · exact ⟨rfl, rfl, nextPc_toNat s⟩
  · exact ⟨rfl, rfl, nextPc_toNat s⟩

/-- One of checks 1 to 3 of R82 fails. -/
def GateCloses (s : State) : Prop :=
  s.vectorEnabled = false ∨ s.vill = true ∨ (s.cfg.nonzeroVstartTraps = true ∧ s.vstart ≠ 0)

theorem vectorGate_of_gateCloses {s : State} (h : GateCloses s) (i : Instr)
    (body : Setting → Host.Outcome State Fault Refusal) :
    vectorGate i s body = raiseIllegal i s := by
  obtain hoff | hvill | ⟨htraps, hvstart⟩ := h
  · simp [vectorGate, hoff]
  · simp [vectorGate, hvill]
  · have htrapped : (s.cfg.nonzeroVstartTraps && s.vstart != 0) = true := by
      rw [htraps, Bool.true_and, bne_iff_ne]
      exact hvstart
    simp only [vectorGate, htrapped, if_true, ite_self]

/-- Settles O24: every Zvzip instruction is the shared template, which starts with the gate. -/
theorem gateFaultsEveryZvzip : Obligations.GateFaultsEveryZvzip := by
  intro i s hz hgate
  obtain ⟨sh, hsh⟩ := Option.ne_none_iff_exists'.1 hz
  obtain ⟨ill, plan, hexec, -, -⟩ := exec_zvzip hsh s
  exact hexec.trans (vectorGate_of_gateCloses hgate i _)

/-- A context instruction is the shared operation at the `vtype` value it requests. -/
theorem exec_of_vtypeRequest {i : Instr} {s : State} {nv : BitVec s.cfg.xlen}
    (h : i.vtypeRequest s = some nv) : ∃ rd avl, exec i s = execVset i rd avl s nv := by
  cases i with
  | vsetvli rd rs1 vtypei => cases h; exact ⟨_, _, rfl⟩
  | vsetivli rd uimm vtypei => cases h; exact ⟨_, _, exec_vsetivli s rd uimm vtypei⟩
  | vsetvl rd rs1 rs2 => cases h; exact ⟨_, _, rfl⟩
  | vzipVV vd vs2 vs1 vm => cases h
  | vunzipeV vd vs2 vm => cases h
  | vunzipoV vd vs2 vm => cases h
  | vpaireVV vd vs2 vs1 vm => cases h
  | vpairoVV vd vs2 vs1 vm => cases h

/-- Settles O38: the request that is not granted sets `vill`, and check 2 of R82 fails. -/
theorem zvzipFaultsAfterAnUngrantedVset : Obligations.ZvzipFaultsAfterAnUngrantedVset := by
  intro c s nv hc he hreq hg
  obtain ⟨rd, avl, hexec⟩ := exec_of_vtypeRequest hreq
  refine ⟨setVl s rd (villValue s.cfg.xlen) 0,
    hexec.trans (execVset_unsupported c rd avl s nv he (requestedSetting_none hg)), fun i hz => ?_⟩
  have hxlen := xlen_ge_32 hc
  refine gateFaultsEveryZvzip i _ hz (.inr (.inl ?_))
  rw [setVl_vill, villValue_getLsbD (by omega), decide_eq_true rfl]

end Sys2Proof.Machine

/-! ## The source's loop

Under undisturbed policies the snapshot semantics is the source's element-by-element loop: in every
encoding that is not reserved, an element of the destination that an iteration has written is no
source of a later one (40_vector_common.md R85). -/

namespace Sys2Proof.Machine

section
variable {vlen sew : Nat} {v w : VRegs vlen} {vd emul8 k : Nat}

/-- Each bit of a register is a bit of one of its elements. -/
theorem vreg_getLsbD_eq_element (hd : sew ∣ vlen) (hw : 0 < sew) (q : Nat) {b : Nat}
    (hb : b < vlen) :
    (vreg v (vd + q)).getLsbD b =
      (getVelem v vd sew (q * (vlen / sew) + b / sew)).getLsbD (b % sew) := by
  have hcol : b / sew < vlen / sew := Nat.div_lt_div_of_lt_of_dvd hd hb
  have hrow : (q * (vlen / sew) + b / sew) / (vlen / sew) = q := by
    rw [Nat.mul_comm, Nat.mul_add_div (Nat.zero_lt_of_lt hcol), Nat.div_eq_of_lt hcol,
      Nat.add_zero]
  rw [getVelem_getLsbD _ _ _ _ (Nat.mod_lt b hw), hrow, Nat.mul_add_mod_of_lt hcol,
    Nat.div_add_mod']

/-- A register file is determined by the elements of a group and the registers outside it. -/
theorem vregs_ext_of_elements (hd : sew ∣ vlen) (hw : 0 < sew)
    (houtside : ∀ n < 32, ¬ InGroup vd emul8 n → vreg w n = vreg v n)
    (helem : ∀ k < groupCapacity vlen sew emul8, getVelem w vd sew k = getVelem v vd sew k) :
    w = v := by
  refine vregs_ext fun n hn => ?_
  by_cases hg : InGroup vd emul8 n
  · obtain ⟨q, rfl⟩ := Nat.exists_eq_add_of_le hg.1
    have hq : q + 1 ≤ groupSize emul8 := Nat.lt_of_add_lt_add_left hg.2
    apply BitVec.eq_of_getLsbD_eq
    intro b hb
    have hcol : b / sew < vlen / sew := Nat.div_lt_div_of_lt_of_dvd hd hb
    have hk : q * (vlen / sew) + b / sew < groupCapacity vlen sew emul8 := by
      rw [groupCapacity_eq hd]
      calc q * (vlen / sew) + b / sew < (q + 1) * (vlen / sew) := by rw [Nat.add_one_mul]; omega
        _ ≤ groupSize emul8 * (vlen / sew) := Nat.mul_le_mul_right _ hq
    rw [vreg_getLsbD_eq_element hd hw q hb, vreg_getLsbD_eq_element hd hw q hb, helem _ hk]
  · exact houtside n hn hg

/-- `w` differs from `v` in destination elements below `k` alone: what the iterations below `k` of
the source's loop can have written. -/
structure WrittenBelow (w v : VRegs vlen) (vd emul8 sew k : Nat) : Prop where
  outside : ∀ n < 32, ¬ InGroup vd emul8 n → vreg w n = vreg v n
  later : ∀ j, k ≤ j → getVelem w vd sew j = getVelem v vd sew j

/-- A source disjoint from the destination is as before. -/
theorem WrittenBelow.agreeOn {src semul8 : Nat} (h : WrittenBelow w v vd emul8 sew k)
    (hdis : GroupsDisjoint vd emul8 src semul8) : AgreeOn w v src semul8 :=
  fun n hn hsrc => h.outside n hn fun hdest => hdis n hn ⟨hdest, hsrc⟩

/-- With a mask register outside the destination the mask is as before. -/
theorem WrittenBelow.active_iff {vm : Bool} (h : WrittenBelow w v vd emul8 sew k)
    (hmask : vm = false → ¬ InGroup vd emul8 0) (j : Nat) :
    (vm = true ∨ maskBit w j = true) ↔ (vm = true ∨ maskBit v j = true) := by
  cases vm with
  | true => simp
  | false => rw [maskBit, maskBit, h.outside 0 (by decide) (hmask rfl)]

/-- An element of the register `q` registers further on. -/
theorem getVelem_add_base (hd : sew ∣ vlen) (hw : 0 < sew) (hv : 0 < vlen) (q j : Nat) :
    getVelem v (vd + q) sew j = getVelem v vd sew (q * (vlen / sew) + j) := by
  have he : 0 < vlen / sew := Nat.div_pos (Nat.le_of_dvd hv hd) hw
  rw [getVelem, getVelem, Nat.mul_comm q, Nat.mul_add_div he, Nat.mul_add_mod, Nat.add_assoc]

end

section
variable {vlen sew : Nat} {v : VRegs vlen} {vd emul8 start : Nat} {vm : Bool}
  {result : VRegs vlen → Nat → BitVec sew}

theorem sailLoop_succ (n : Nat) :
    sailLoop vd vm result start v (n + 1) =
      if vm = true ∨ maskBit (sailLoop vd vm result start v n) (start + n) = true then
        setVelem (sailLoop vd vm result start v n) vd sew (start + n)
          (result (sailLoop vd vm result start v n) (start + n))
      else sailLoop vd vm result start v n := rfl

/-- One iteration changes one element, and that one if it is active. -/
theorem getVelem_ite_setVelem (hd : sew ∣ vlen) (hw : 0 < sew) (hv : 0 < vlen) {k j : Nat}
    (hreg : vd + k / (vlen / sew) < 32) (active : Prop) [Decidable active] (val : BitVec sew) :
    getVelem (if active then setVelem v vd sew k val else v) vd sew j =
      if j = k ∧ active then val else getVelem v vd sew j := by
  by_cases hactive : active
  · rw [if_pos hactive]
    by_cases hj : j = k
    · rw [if_pos ⟨hj, hactive⟩, hj, getVelem_setVelem_same hd hw hv _ _ _ _ hreg]
    · rw [if_neg (hj ·.1), getVelem_setVelem_ne hd hw hv _ _ _ _ _ hreg hj]
  · rw [if_neg hactive, if_neg (hactive ·.2)]

/-- The loop writes no register outside the destination group. -/
theorem vreg_sailLoop_outside (hd : sew ∣ vlen) (hw : 0 < sew) (hv : 0 < vlen) {r : Nat}
    (hr : ¬ InGroup vd emul8 r) :
    ∀ {n : Nat}, start + n ≤ groupCapacity vlen sew emul8 →
      vreg (sailLoop vd vm result start v n) r = vreg v r
  | 0, _ => rfl
  | n + 1, hcap => by
    have ih := vreg_sailLoop_outside hd hw hv hr (n := n) (by omega)
    have hq := elem_reg_lt hd hw hv emul8 (start + n) (by omega)
    rw [sailLoop_succ]
    split
    · rw [vreg_setVelem_other _ _ _ _ _ ?_, ih]
      rintro rfl
      exact hr ⟨Nat.le_add_right _ _, Nat.add_lt_add_left hq _⟩
    · exact ih

/-- The loop of a result that no earlier iteration disturbs: after `n` iterations the active
elements among them hold the result on the entry register file, and the others their old value. -/
theorem getVelem_sailLoop (hd : sew ∣ vlen) (hw : 0 < sew) (hv : 0 < vlen)
    (hfits : vd + groupSize emul8 ≤ 32) (hmask : vm = false → ¬ InGroup vd emul8 0) {evl : Nat}
    (hevl : evl ≤ groupCapacity vlen sew emul8)
    (hstable : ∀ k < evl, ∀ w, WrittenBelow w v vd emul8 sew k → result w k = result v k) :
    ∀ {n : Nat}, start + n ≤ evl → ∀ j,
      getVelem (sailLoop vd vm result start v n) vd sew j =
        if start ≤ j ∧ j < start + n ∧ (vm = true ∨ maskBit v j = true) then result v j
        else getVelem v vd sew j
  | 0, _, j => by rw [if_neg (by omega), sailLoop]
  | n + 1, hn, j => by
    have ih := getVelem_sailLoop hd hw hv hfits hmask hevl hstable (n := n) (by omega)
    have hbelow : WrittenBelow (sailLoop vd vm result start v n) v vd emul8 sew (start + n) :=
      { outside := fun r _ hr => vreg_sailLoop_outside hd hw hv hr (by omega)
        later := fun i hi => by rw [ih, if_neg (by omega)] }
    have hreg : vd + (start + n) / (vlen / sew) < 32 := by
      have := elem_reg_lt hd hw hv emul8 (start + n) (by omega)
      exact (Nat.add_lt_add_left this _).trans_le hfits
    rw [sailLoop_succ, getVelem_ite_setVelem hd hw hv hreg]
    simp only [hbelow.active_iff hmask, hstable (start + n) (by omega) _ hbelow, ih]
    by_cases hj : j = start + n
    · subst hj
      simp
    · have hrange : j < start + (n + 1) ↔ j < start + n := by omega
      simp only [hj, hrange, false_and, if_false]

end

/-- Under undisturbed policies an active element of the body holds the result and every other
element its old value. -/
theorem WritesDestination.undisturbed {s : State} {v' : VRegs s.cfg.vlen}
    {sew vd emul8 evl k : Nat} {vm : Bool} {result : Nat → BitVec sew}
    (h : WritesDestination s v' sew vd emul8 evl vm result) (hvma : s.vma = false)
    (hvta : s.vta = false) (hk : k < groupCapacity s.cfg.vlen sew emul8) :
    getVelem v' vd sew k =
      if s.vstart.toNat ≤ k ∧ k < evl ∧ (vm = true ∨ maskBit s.v k = true) then result k
      else getVelem s.v vd sew k := by
  by_cases hstart : s.vstart.toNat ≤ k
  · by_cases hevl : k < evl
    · by_cases hactive : vm = true ∨ maskBit s.v k = true
      · rw [if_pos ⟨hstart, hevl, hactive⟩, h.active hk hstart hevl hactive]
      · rw [if_neg fun hc => hactive hc.2.2]
        obtain ⟨hvm, hbit⟩ : vm = false ∧ maskBit s.v k = false := by simpa using hactive
        exact (undisturbed_and_agnostic (h.inactive hk hstart hevl hvm hbit)).1 hvma
    · rw [if_neg fun hc => hevl hc.2.1]
      exact (undisturbed_and_agnostic (h.tail hk (by omega))).1 hvta
  · rw [if_neg fun hc => hstart hc.1, h.prestart hk (by omega)]

/-! ### No iteration reads what an earlier one has written -/

section
variable {vlen : Nat} {st : Setting} {v w : VRegs vlen}

/-- At `LMUL >= 1` the registers of a group of `LMUL` hold `VLMAX` elements. -/
theorem vlmax_eq_registers (hd : st.sew ∣ vlen) (hm : IsLmul8 st.lmul8) (h8 : 8 ≤ st.lmul8) :
    st.vlmax vlen = st.lmul8 / 8 * (vlen / st.sew) := by
  have hdvd : 8 ∣ st.lmul8 := by
    simp only [List.mem_cons, List.not_mem_nil, or_false] at hm
    omega
  rw [Setting.vlmax, Nat.mul_div_mul_comm hdvd hd]

/-- A source of `vzip.vv` is disjoint from the destination or its upper half, whose elements are
read before they are overwritten (R81, R85). -/
theorem vzip_source_kept (hd : st.sew ∣ vlen) (hw : 0 < st.sew) (hv : 0 < vlen)
    (hm : IsLmul8 st.lmul8) {vd src k : Nat}
    (h : WrittenBelow w v vd (2 * st.lmul8) st.sew k) (hk : k < 2 * st.vlmax vlen)
    (hsrc : GroupsDisjoint vd (2 * st.lmul8) src st.lmul8 ∨
      (8 ≤ st.lmul8 ∧ src = vd + st.lmul8 / 8)) :
    getVelem w src st.sew (k / 2) = getVelem v src st.sew (k / 2) := by
  obtain hdis | ⟨h8, rfl⟩ := hsrc
  · have hcap := vlmax_le_capacity (vlen := vlen) hm 1 (.inl rfl)
    rw [Nat.one_mul, Nat.one_mul] at hcap
    exact getVelem_of_agreeOn (h.agreeOn hdis) hd hw hv (by omega)
  · rw [getVelem_add_base hd hw hv, getVelem_add_base hd hw hv, ← vlmax_eq_registers hd hm h8]
    exact h.later _ (by omega)

/-- The source of an unzip instruction is disjoint from the destination or starts with it, where
element `j` of the source is element `j` of the destination. -/
theorem vunzip_source_kept (hd : st.sew ∣ vlen) (hw : 0 < st.sew) (hv : 0 < vlen)
    (hm : IsLmul8 st.lmul8) {vd vs2 : RegNum} {k j : Nat}
    (h : WrittenBelow w v vd.toNat st.lmul8 st.sew k) (hj : j < 2 * st.vlmax vlen) (hkj : k ≤ j)
    (hsrc : GroupsDisjoint vd.toNat st.lmul8 vs2.toNat (2 * st.lmul8) ∨ vd = vs2) :
    getVelem w vs2.toNat st.sew j = getVelem v vs2.toNat st.sew j := by
  obtain hdis | rfl := hsrc
  · exact getVelem_of_agreeOn (h.agreeOn hdis) hd hw hv
      (hj.trans_le (vlmax_le_capacity hm 2 (.inr rfl)))
  · exact h.later j hkj

/-- Both sources of a pair instruction are disjoint from the destination. -/
theorem vpair_sources_agree {vd vs2 vs1 : RegNum} {vm : Bool} {k : Nat}
    (hl : LegalVpair vd vs2 vs1 vm st.lmul8)
    (h : WrittenBelow w v vd.toNat st.lmul8 st.sew k) :
    ∀ g ∈ [(vs2.toNat, st.lmul8), (vs1.toNat, st.lmul8)], AgreeOn w v g.1 g.2 := by
  obtain ⟨-, -, -, hdis2, hdis1, -⟩ := hl
  simpa using ⟨h.agreeOn hdis2, h.agreeOn hdis1⟩

/-- The result of a body element of a legal Zvzip instruction is the same on the register file the
iterations below it leave. -/
theorem sailResult_of_writtenBelow {i : Instr} {sh : DestShape} (h : i.destShape = some sh)
    (hd : st.sew ∣ vlen) (hw : 0 < st.sew) (hv : 0 < vlen) (hm : IsLmul8 st.lmul8)
    (hl : i.Legal st.lmul8) {vl k : Nat} (hvl : vl ≤ st.vlmax vlen) (hk : k < sh.evlFactor * vl)
    (hb : WrittenBelow w v sh.vd.toNat (sh.emulFactor * st.lmul8) st.sew k) :
    i.sailResult st.sew (st.vlmax vlen) w k = i.sailResult st.sew (st.vlmax vlen) v k := by
  cases i with
  | vzipVV vd vs2 vs1 vm =>
    cases h
    obtain ⟨-, -, -, -, hsrc2, hsrc1, -⟩ := hl
    have hk2 : k < 2 * st.vlmax vlen := hk.trans_le (Nat.mul_le_mul_left 2 hvl)
    rw [Instr.sailResult, Instr.sailResult, vzip_source_kept hd hw hv hm hb hk2 hsrc2,
      vzip_source_kept hd hw hv hm hb hk2 hsrc1]
  | vunzipeV vd vs2 vm =>
    cases h
    obtain ⟨-, -, -, hsrc, -⟩ := hl
    rw [Nat.one_mul] at hb hk
    exact vunzip_source_kept hd hw hv hm hb (by omega) (by omega) hsrc
  | vunzipoV vd vs2 vm =>
    cases h
    obtain ⟨-, -, -, hsrc, -⟩ := hl
    rw [Nat.one_mul] at hb hk
    exact vunzip_source_kept hd hw hv hm hb (by omega) (by omega) hsrc
  | vpaireVV vd vs2 vs1 vm =>
    cases h
    rw [Nat.one_mul] at hb
    exact sailResult_of_agreeOn (i := .vpaireVV vd vs2 vs1 vm) rfl hd hw hv hm
      (vpair_sources_agree hl hb) hvl hk
  | vpairoVV vd vs2 vs1 vm =>
    cases h
    rw [Nat.one_mul] at hb
    exact sailResult_of_agreeOn (i := .vpairoVV vd vs2 vs1 vm) rfl hd hw hv hm
      (vpair_sources_agree hl hb) hvl hk
  | vsetvli rd rs1 vtypei => cases h
  | vsetivli rd uimm vtypei => cases h
  | vsetvl rd rs1 rs2 => cases h

end

/-- A legal masked instruction has the mask register outside its destination (R81). -/
theorem legal_mask_outside {i : Instr} {sh : DestShape} (h : i.destShape = some sh) {lmul8 : Nat}
    (hl : i.Legal lmul8) (hvm : sh.vm = false) :
    ¬ InGroup sh.vd.toNat (sh.emulFactor * lmul8) 0 := by
  cases i with
  | vzipVV vd vs2 vs1 vm =>
    cases h
    obtain ⟨-, -, -, -, -, -, hmask⟩ := hl
    exact hmask hvm
  | vunzipeV vd vs2 vm =>
    cases h
    obtain ⟨-, -, -, -, hmask⟩ := hl
    rw [Nat.one_mul]
    exact hmask hvm
  | vunzipoV vd vs2 vm =>
    cases h
    obtain ⟨-, -, -, -, hmask⟩ := hl
    rw [Nat.one_mul]
    exact hmask hvm
  | vpaireVV vd vs2 vs1 vm =>
    cases h
    obtain ⟨-, -, -, -, -, hmask⟩ := hl
    rw [Nat.one_mul]
    exact hmask hvm
  | vpairoVV vd vs2 vs1 vm =>
    cases h
    obtain ⟨-, -, -, -, -, hmask⟩ := hl
    rw [Nat.one_mul]
    exact hmask hvm
  | vsetvli rd rs1 vtypei => cases h
  | vsetivli rd uimm vtypei => cases h
  | vsetvl rd rs1 rs2 => cases h

/-- Settles O27: the registers outside the destination group are kept by both, and element by
element of the group both hold the result on the entry register file or the old value. -/
theorem snapshotAgreesWithTheSailLoop : Obligations.SnapshotAgreesWithTheSailLoop := by
  intro i sh s st hsh hi hr hl hvma hvta
  obtain ⟨v', hexec, hwrites⟩ := exec_zvzip_completes hsh hi hr hl
  have ⟨houtside, hempty, _⟩ := hwrites
  have hd := hr.sew_dvd hi
  have hsew := isSew_pos hr.isSew
  have hvlen := vlen_pos hi.cfg
  have hevl := evl_le_capacity hsh hi hr
  have hstable : ∀ k < sh.evlFactor * s.vl.toNat, ∀ w,
      WrittenBelow w s.v sh.vd.toNat (sh.emulFactor * st.lmul8) st.sew k →
        i.sailResult st.sew (st.vlmax s.cfg.vlen) w k =
          i.sailResult st.sew (st.vlmax s.cfg.vlen) s.v k := fun k hk w hb =>
    sailResult_of_writtenBelow hsh hd hsew hvlen hr.isLmul8 hl (hr.requested hi).2 hk hb
  suffices hloop : v' = sailLoop sh.vd.toNat sh.vm (i.sailResult st.sew (st.vlmax s.cfg.vlen))
      s.vstart.toNat s.v (sh.evlFactor * s.vl.toNat - s.vstart.toNat) by rw [hexec, hloop]
  obtain hle | hbody := Nat.le_total (sh.evlFactor * s.vl.toNat) s.vstart.toNat
  · rw [Nat.sub_eq_zero_of_le hle, sailLoop]
    exact hempty hle
  have hend := Nat.add_sub_of_le hbody
  refine vregs_ext_of_elements hd hsew (vd := sh.vd.toNat) (emul8 := sh.emulFactor * st.lmul8)
    (fun n hn hg => ?_) fun k hk => ?_
  · rw [vreg_sailLoop_outside hd hsew hvlen hg (hend.trans_le hevl), houtside n hn hg]
  · rw [hwrites.undisturbed hvma hvta hk,
      getVelem_sailLoop hd hsew hvlen (legal_dest_fits hsh hr.isLmul8 hl)
        (legal_mask_outside hsh hl) hevl hstable hend.le, hend]

end Sys2Proof.Machine

/-! ## Unzipping a zip

The two unzip instructions take the sources of `vzip.vv` back out of its destination
(42_vunzip.md R95, R96). -/

namespace Sys2Proof.Machine

/-- After a Zvzip instruction the next one passes the gate at the same setting: `vstart` is 0. -/
theorem Ready.retire {s : State} {st : Setting} (hr : Ready s st) (v' : VRegs s.cfg.vlen) :
    Ready (retire s v') st := by
  obtain ⟨henabled, hvill, -, hsetting⟩ := hr
  exact ⟨henabled, hvill, fun _ => rfl, hsetting⟩

/-- Unmasked and from `vstart = 0`, a legal Zvzip instruction in a ready state retires with its
result in every element of the body. -/
theorem exec_zvzip_unmasked {i : Instr} {sh : DestShape} (h : i.destShape = some sh)
    (hvm : sh.vm = true) {s : State} {st : Setting} (hi : s.Inv) (hr : Ready s st)
    (hstart : s.vstart = 0) (hl : i.Legal st.lmul8) :
    ∃ v', exec i s = .next (retire s v') ∧ ∀ k < sh.evlFactor * s.vl.toNat,
      getVelem v' sh.vd.toNat st.sew k = i.sailResult st.sew (st.vlmax s.cfg.vlen) s.v k := by
  obtain ⟨v', hexec, hwrites⟩ := exec_zvzip_completes h hi hr hl
  exact ⟨v', hexec, fun k hk => hwrites.active (hk.trans_le (evl_le_capacity h hi hr))
    (by simp [hstart]) hk (.inl hvm)⟩

section
variable {vlen : Nat} (vd vs2 vs1 : RegNum) (vm : Bool) (sew vlmax : Nat) (v : VRegs vlen) (k : Nat)

/-- The even elements of a zip are the elements of `vs2`. -/
theorem sailResult_vzipVV_even :
    (Instr.vzipVV vd vs2 vs1 vm).sailResult sew vlmax v (2 * k) =
      getVelem v vs2.toNat sew k := by
  rw [Instr.sailResult, if_pos (by omega), Nat.mul_div_cancel_left k Nat.two_pos]

/-- The odd elements of a zip are the elements of `vs1`. -/
theorem sailResult_vzipVV_odd :
    (Instr.vzipVV vd vs2 vs1 vm).sailResult sew vlmax v (2 * k + 1) =
      getVelem v vs1.toNat sew k := by
  have hhalf : (2 * k + 1) / 2 = k := by omega
  rw [Instr.sailResult, if_neg (by omega), hhalf]

end

/-- Settles O28: both unzips run from the state the zip retires to, and element `k < VL` of theirs
is element `2k` or `2k + 1` of the zip's body of `2*VL`. -/
theorem unzipsInvertZip : Obligations.UnzipsInvertZip := by
  intro s st vd va vb ve vo hi hr hstart hlz hle hlo
  obtain ⟨vz, hzip, hz⟩ :=
    exec_zvzip_unmasked (i := .vzipVV vd va vb true) rfl rfl hi hr hstart hlz
  obtain ⟨vE, heven, hE⟩ := exec_zvzip_unmasked (i := .vunzipeV ve vd true) rfl rfl
    (retire_inv hi vz) (hr.retire vz) rfl hle
  obtain ⟨vO, hodd, hO⟩ := exec_zvzip_unmasked (i := .vunzipoV vo vd true) rfl rfl
    (retire_inv hi vz) (hr.retire vz) rfl hlo
  refine ⟨_, _, _, hzip, heven, hodd, fun k hk => ?_⟩
  have hk1 : k < 1 * s.vl.toNat := by omega
  constructor
  · calc getVelem vE ve.toNat st.sew k
      _ = getVelem vz vd.toNat st.sew (2 * k) := hE k hk1
      _ = (Instr.vzipVV vd va vb true).sailResult st.sew (st.vlmax s.cfg.vlen) s.v (2 * k) :=
        hz (2 * k) (by dsimp only; omega)
      _ = getVelem s.v va.toNat st.sew k := sailResult_vzipVV_even ..
  · calc getVelem vO vo.toNat st.sew k
      _ = getVelem vz vd.toNat st.sew (2 * k + 1) := hO k hk1
      _ = (Instr.vzipVV vd va vb true).sailResult st.sew (st.vlmax s.cfg.vlen) s.v (2 * k + 1) :=
        hz (2 * k + 1) (by dsimp only; omega)
      _ = getVelem s.v vb.toNat st.sew k := sailResult_vzipVV_odd ..

end Sys2Proof.Machine

/-! ## The zero fill of `vpairo.vv`

`VLMAX` is a power of two, so an even element below `VL` can be the last one below `VLMAX` only where
`VLMAX = 1` (43_vpair.md R101). -/

namespace Sys2Proof.Machine

/-- Where it is not 0, `VLMAX = LMUL * VLEN / SEW` is a power of two, as its factors are. -/
theorem vlmax_eq_two_pow {c : Config} (hc : c.WF) {st : Setting} (hm : IsLmul8 st.lmul8)
    (hs : IsSew st.sew) (hpos : 0 < st.vlmax c.vlen) : ∃ e, st.vlmax c.vlen = 2 ^ e := by
  have hlmul : ∀ n, IsLmul8 n → ∃ a ≤ 6, n = 2 ^ a := by decide
  have hsew : ∀ n, IsSew n → ∃ b ≤ 9, 8 * n = 2 ^ b := by decide
  obtain ⟨a, -, ha⟩ := hlmul _ hm
  obtain ⟨b, -, hb⟩ := hsew _ hs
  obtain ⟨k, -, hk⟩ := vlen_eq_two_pow hc
  have hquot : st.vlmax c.vlen = 2 ^ (a + k) / 2 ^ b := by rw [Setting.vlmax, ha, hb, hk, pow_add]
  have hle : b ≤ a + k :=
    (Nat.pow_le_pow_iff_right (by decide)).1 (Nat.div_pos_iff.1 (hquot ▸ hpos)).2
  exact ⟨a + k - b, hquot.trans (Nat.pow_div hle (by decide))⟩

/-- An element of the body of `vpairo.vv` has its source index at or above `VLMAX` exactly in the
corner R101 names. -/
theorem vlmax_le_vpairoIndex_iff {s : State} {st : Setting} (hi : s.Inv) (hr : Ready s st) {k : Nat}
    (hk : k < s.vl.toNat) :
    st.vlmax s.cfg.vlen ≤ vpairoIndex k ↔
      st.vlmax s.cfg.vlen = 1 ∧ s.vl.toNat = 1 ∧ k = 0 := by
  have hvl : s.vl.toNat ≤ st.vlmax s.cfg.vlen := (hr.requested hi).2
  obtain ⟨e, he⟩ := vlmax_eq_two_pow hi.cfg hr.isLmul8 hr.isSew (by omega)
  unfold vpairoIndex
  cases e with
  | zero => split <;> omega
  | succ e =>
    rw [pow_succ] at he
    split <;> omega

/-- Settles O15: the index reaches `VLMAX` in that corner alone, and there the unmasked instruction
writes its result, the zero, to element 0. -/
theorem vpairoZeroFillsOnlyAtVlmaxOne : Obligations.VpairoZeroFillsOnlyAtVlmaxOne := by
  intro s st vd vs2 vs1 hi hr hl
  refine ⟨fun k hk => vlmax_le_vpairoIndex_iff hi hr hk, fun hvlmax hvl hstart => ?_⟩
  obtain ⟨v', hexec, hbody⟩ :=
    exec_zvzip_unmasked (i := .vpairoVV vd vs2 vs1 true) rfl rfl hi hr hstart hl
  have hzero : st.vlmax s.cfg.vlen ≤ vpairoIndex 0 := hvlmax.le
  exact ⟨_, hexec, (hbody 0 (by dsimp only; omega)).trans (if_pos hzero)⟩

end Sys2Proof.Machine

/-! ## The keep form, and the fault of the context instructions

With `rd = rs1 = x0` the current `vl` is the AVL, and it is at most the current `VLMAX`, so an unchanged
`VLMAX` keeps it; any other is reserved (44_context_vset.md R112). The one fault of a context
instruction is that of the vector unit being off (R111, 60_exceptions.md R128). -/

namespace Sys2Proof.Machine

/-- The current `VLMAX` is that of the current setting, which `vill` takes away. -/
theorem currentVlmax_eq_some_iff {s : State} {n : Nat} :
    s.currentVlmax = some n ↔
      s.vill = false ∧ ∃ old, s.setting = some old ∧ old.vlmax s.cfg.vlen = n := by
  unfold State.currentVlmax
  cases s.vill with
  | true => simp
  | false => simp

/-- The invariants bound `vl` by the current `VLMAX` (10_state.md R35). -/
theorem vl_le_currentVlmax {s : State} (hi : s.Inv) {n : Nat} (h : s.currentVlmax = some n) :
    s.vl.toNat ≤ n := by
  obtain ⟨hvill, old, hset, rfl⟩ := currentVlmax_eq_some_iff.1 h
  have hvl := hi.vtype.2 hvill
  cases hq : requestedSetting s.cfg s.vtype with
  | none =>
    rw [hq] at hvl
    exact hvl.elim
  | some st =>
    rw [hq] at hvl
    obtain rfl : st = old := Option.some.inj ((requestedSetting_some.1 hq).2.1.symm.trans hset)
    exact hvl

/-- An AVL of at most `VLMAX` is the new `vl` (R112). -/
theorem newVl_of_le {avl vlmax : Nat} (h : avl ≤ vlmax) : newVl avl vlmax = avl :=
  (newVl_allowed avl vlmax).1 h

/-- Setting `vl` to itself with `rd = x0` changes `vtype`, `vstart` and `pc` alone. -/
theorem setVl_zero_vl (s : State) (vt : BitVec s.cfg.xlen) :
    setVl s 0 vt s.vl.toNat = { s with vtype := vt, vstart := 0, pc := s.pc + 4 } := by
  rw [setVl, BitVec.ofNat_toNat, BitVec.setWidth_eq]
  rfl

section
variable {s : State} {st : Setting} {nv : BitVec s.cfg.xlen} (i : Instr)

/-- The keep form with a granted request that leaves `VLMAX` as it is. -/
theorem execVset_keep_sameVlmax (hi : s.Inv) (he : s.vectorEnabled = true)
    (hg : RequestGranted s.cfg nv st) (h : s.currentVlmax = some (st.vlmax s.cfg.vlen)) :
    execVset i 0 .keepVl s nv = .next { s with vtype := nv, vstart := 0, pc := s.pc + 4 } := by
  rw [execVset_keep i 0 s nv he ((requestGranted_iff s.cfg nv st).1 hg), if_pos h,
    newVl_of_le (vl_le_currentVlmax hi h), vtypeFrom_of_granted hi.cfg hg, setVl_zero_vl]

/-- The keep form with a granted request whose `VLMAX` is not the current one. -/
theorem execVset_keep_otherVlmax (he : s.vectorEnabled = true) (hg : RequestGranted s.cfg nv st)
    (h : s.currentVlmax ≠ some (st.vlmax s.cfg.vlen)) :
    execVset i 0 .keepVl s nv = .refused (.keepVlReserved s.pc.toNat (encode i)) := by
  rw [execVset_keep i 0 s nv he ((requestGranted_iff s.cfg nv st).1 hg), if_neg h]

/-- Both outcomes of the keep form, told apart by `vill` and the current setting. -/
theorem execVset_keepForm (hi : s.Inv) (he : s.vectorEnabled = true)
    (hg : RequestGranted s.cfg nv st) :
    (∀ old, s.vill = false → s.setting = some old →
        old.vlmax s.cfg.vlen = st.vlmax s.cfg.vlen →
        execVset i 0 .keepVl s nv = .next { s with vtype := nv, vstart := 0, pc := s.pc + 4 }) ∧
      ((s.vill = true ∨ ∀ old, s.setting = some old →
          old.vlmax s.cfg.vlen ≠ st.vlmax s.cfg.vlen) →
        execVset i 0 .keepVl s nv = .refused (.keepVlReserved s.pc.toNat (encode i))) := by
  constructor
  · intro old hvill hset hmax
    exact execVset_keep_sameVlmax i hi he hg
      (currentVlmax_eq_some_iff.2 ⟨hvill, old, hset, hmax⟩)
  · intro hother
    refine execVset_keep_otherVlmax i he hg fun hcur => ?_
    obtain ⟨hvill, old, hset, hmax⟩ := currentVlmax_eq_some_iff.1 hcur
    obtain hvill' | hne := hother
    · exact Bool.noConfusion (hvill.symm.trans hvill')
    · exact hne old hset hmax

/-- With the vector unit off a context instruction faults, whatever it requests. -/
theorem execVset_off (rd : RegNum) (avl : Avl) (he : s.vectorEnabled = false) :
    execVset i rd avl s nv = raiseIllegal i s := by
  simp [execVset, he]

end

/-- Settles O35: with both registers `x0`, `vsetvli` and `vsetvl` are the shared operation in the keep
form. -/
theorem keepFormKeepsVlOrIsRefused : Obligations.KeepFormKeepsVlOrIsRefused := by
  intro s st hi he
  exact ⟨fun vtypei hg => execVset_keepForm (.vsetvli 0 0 vtypei) hi he hg,
    fun rs2 hg => execVset_keepForm (.vsetvl 0 0 rs2) hi he hg⟩

/-- Settles O36: each of the three is the shared operation, whose only fault is that of the vector unit
being off. -/
theorem vsetFaultsExactlyWhenVectorIsOff : Obligations.VsetFaultsExactlyWhenVectorIsOff := by
  intro i s hset
  obtain ⟨rd, hrd⟩ := Option.ne_none_iff_exists'.1 hset
  obtain ⟨avl, nv, hexec⟩ := exec_vset hrd s
  constructor
  · intro hoff
    exact hexec.trans (execVset_off i rd avl hoff)
  · intro hon f hfault
    obtain ⟨hoff, -⟩ := execVset_fault i rd avl s nv (hexec.symm.trans hfault)
    exact Bool.noConfusion (hoff.symm.trans hon)

end Sys2Proof.Machine

/-! ## The causes of a fault

A Zvzip instruction faults where one of checks 1 to 3 of 40_vector_common.md R82 fails or, in a
ready state, where its operands are reserved, and nowhere else (60_exceptions.md R121, R122). A
step's fault is that of the instruction it runs, whose encoding is the fetched word (R120). -/

namespace Sys2Proof.Machine

/-- A fault behind the gate is the gate's own, or that of the body it runs in a ready state. -/
theorem vectorGate_fault {i : Instr} {s : State} {f : Fault}
    {body : Setting → Host.Outcome State Fault Refusal} (h : vectorGate i s body = .fault f) :
    GateCloses s ∨ ∃ st, Ready s st ∧ body st = .fault f := by
  obtain ⟨-, hcloses⟩ | ⟨st, hr, hbody⟩ | ⟨-, hrefused⟩ := vectorGate_cases i s body
  · exact .inl hcloses
  · exact .inr ⟨st, hr, hbody.symm.trans h⟩
  · cases hrefused.symm.trans h

/-- The template faults only at the gate, or at its check of the operands in a ready state. -/
theorem execZvzip_fault_cause {i : Instr} {illegal : Setting → Bool} {s : State} {f : Fault}
    {plan : (st : Setting) → Plan s.cfg.vlen st.sew} (h : execZvzip i illegal s plan = .fault f) :
    GateCloses s ∨ ∃ st, Ready s st ∧ illegal st = true := by
  refine (vectorGate_fault h).imp_right fun ⟨st, hr, hbody⟩ => ⟨st, hr, ?_⟩
  by_contra hlegal
  rw [if_neg hlegal] at hbody
  split at hbody <;> cases hbody

/-- Settles O23: the template's check of the operands fails, as the instruction is not legal. -/
theorem reservedZvzipFaults : Obligations.ReservedZvzipFaults := by
  intro i s st hz hr hl
  obtain ⟨sh, hsh⟩ := Option.ne_none_iff_exists'.1 hz
  obtain ⟨ill, plan, hexec, hill, -⟩ := exec_zvzip hsh s
  have hillegal : ill st = true := Bool.ne_false_iff.1 (mt (hill st hr.isLmul8).1 hl)
  exact hexec.trans (execZvzip_illegal i ill s plan hr hillegal)

/-- Settles O25: an instruction that fails the template's check of the operands is not legal. -/
theorem zvzipFaultsOnlyInTheListedCases : Obligations.ZvzipFaultsOnlyInTheListedCases := by
  intro i s f hz hf
  obtain ⟨sh, hsh⟩ := Option.ne_none_iff_exists'.1 hz
  obtain ⟨ill, plan, hexec, hill, -⟩ := exec_zvzip hsh s
  obtain hcloses | ⟨st, hr, hillegal⟩ := execZvzip_fault_cause (hexec.symm.trans hf)
  · obtain hoff | hvill | htrapped := hcloses
    · exact .inl hoff
    · exact .inr (.inl hvill)
    · exact .inr (.inr (.inl htrapped))
  · have hreserved : ¬ i.Legal st.lmul8 :=
      mt (hill st hr.isLmul8).2 (Bool.ne_false_iff.2 hillegal)
    exact .inr (.inr (.inr ⟨st, hr.2.2.2, hreserved⟩))

/-- A step that faults fetched a word that decodes, and runs its instruction. -/
theorem step_fault {s : State} {f : Fault} (h : step s = .fault f) :
    ∃ b0 b1 b2 b3 i, s.fetchBytes = some [b0, b1, b2, b3] ∧
      decodeWord (wordOfBytes b0 b1 b2 b3) = some i ∧ exec i s = .fault f := by
  obtain ⟨-, hend⟩ | ⟨b0, b1, b2, b3, hbytes, ⟨-, hrefused⟩ | ⟨i, hdecode, hexec⟩⟩ := step_cases s
  · cases hend.symm.trans h
  · cases hrefused.symm.trans h
  · exact ⟨b0, b1, b2, b3, i, hbytes, hdecode, hexec.symm.trans h⟩

/-- Settles O9: the instruction's fault carries its encoding, which is the fetched word. -/
theorem faultCarriesPcAndFetchedWord : Obligations.FaultCarriesPcAndFetchedWord := by
  intro s f h
  obtain ⟨b0, b1, b2, b3, i, hbytes, hdecode, hfault⟩ := step_fault h
  obtain ⟨-, hword⟩ := encodeOfDecodeIsTheWord _ i hdecode
  refine ⟨b0, b1, b2, b3, hbytes, ?_⟩
  rw [exec_fault hfault, hword]

end Sys2Proof.Machine

/-! ## The end of the run

The run ends where one of the four bytes at `pc` lies outside the program (70_reset_and_hazards.md
R146): one missing byte is enough for the fetch to give none. -/

namespace Sys2Proof.Machine

/-- A fetch that gives bytes found each of the four at `pc`. -/
theorem fetchByte_ne_none_of_fetchBytes {s : State} {bytes : List Byte}
    (hf : s.fetchBytes = some bytes) {k : Nat} (hk : k < 4) : s.fetchByte k ≠ none := by
  unfold State.fetchBytes at hf
  split at hf
  next h0 h1 h2 h3 => interval_cases k <;> simp [h0, h1, h2, h3]
  next => cases hf

/-- Settles O8: the missing byte leaves `step_cases` only its end of the run. -/
theorem runEndsOutsideTheProgram : Obligations.RunEndsOutsideTheProgram := by
  rintro s ⟨k, hk, hmissing⟩
  obtain ⟨-, hend⟩ | ⟨_, _, _, _, hbytes, -⟩ := step_cases s
  · exact hend
  · exact absurd hmissing (fetchByte_ne_none_of_fetchBytes hbytes hk)

end Sys2Proof.Machine

/-! ## Refusals outside the launch invariants

The template refuses in a state whose `vtype` decodes to no setting, which is one with a reserved code
(10_state.md R25), and in one where `vl` is above `VLMAX` or an element is wider than a register (R35,
log 7). -/

namespace Sys2Proof.Machine

theorem sewOf_eq_none_iff : ∀ c : BitVec 3, sewOf c = none ↔ 4 ≤ c.toNat := by decide

theorem lmul8Of_eq_none_iff : ∀ c : BitVec 3, lmul8Of c = none ↔ c.toNat = 4 := by decide

theorem settingOf_eq_none_iff (a b : BitVec 3) :
    settingOf a b = none ↔ sewOf a = none ∨ lmul8Of b = none := by
  unfold settingOf
  cases sewOf a <;> cases lmul8Of b <;> simp

/-- The current setting is missing exactly where `vsew` or `vlmul` holds a reserved code. -/
theorem setting_eq_none_iff (s : State) :
    s.setting = none ↔ 4 ≤ s.vtype.toNat / 8 % 8 ∨ s.vtype.toNat % 8 = 4 := by
  rw [State.setting, settingOf_eq_none_iff, sewOf_eq_none_iff, lmul8Of_eq_none_iff, vsewOf_eq,
    vlmulOf_eq, BitVec.toNat_ofNat, BitVec.toNat_ofNat]

theorem insideLaunchInvariants_eq_false_iff (s : State) (st : Setting) :
    insideLaunchInvariants s st = false ↔
      st.vlmax s.cfg.vlen < s.vl.toNat ∨ s.cfg.vlen < st.sew := by
  rw [insideLaunchInvariants, Bool.and_eq_false_iff, decide_eq_false_iff_not, decide_eq_false_iff_not,
    Nat.not_le, Nat.not_le]

/-- Behind checks 1 to 3 of R82 the gate refuses where there is no setting to run the body with. -/
theorem vectorGate_of_setting_none {s : State} (hgate : ¬ GateCloses s) (hst : s.setting = none)
    (i : Instr) (body : Setting → Host.Outcome State Fault Refusal) :
    vectorGate i s body = .refused (.outsideLaunchInvariants s.pc.toNat (encode i)) := by
  obtain ⟨-, hcloses⟩ | ⟨st, ⟨-, -, -, hsome⟩, -⟩ | ⟨-, hrefused⟩ := vectorGate_cases i s body
  · exact absurd hcloses hgate
  · cases hst.symm.trans hsome
  · exact hrefused

/-- A legal instruction in a ready state outside the invariants is refused. -/
theorem execZvzip_outside {i : Instr} {illegal : Setting → Bool} {s : State} {st : Setting}
    (plan : (st : Setting) → Plan s.cfg.vlen st.sew) (hr : Ready s st) (hlegal : illegal st = false)
    (houtside : insideLaunchInvariants s st = false) :
    execZvzip i illegal s plan = .refused (.outsideLaunchInvariants s.pc.toNat (encode i)) := by
  rw [execZvzip, vectorGate_ready hr, hlegal, houtside]
  rfl

/-- Settles O26: a reserved code leaves the gate no setting; and in a ready state a legal instruction
reaches the template's test of `vl` and `SEW`, which fails. -/
theorem reservedVtypeCodeLongVlOrWideSewIsRefused :
    Obligations.ReservedVtypeCodeLongVlOrWideSewIsRefused := by
  intro i s hz
  obtain ⟨sh, hsh⟩ := Option.ne_none_iff_exists'.1 hz
  obtain ⟨ill, plan, hexec, hill, -⟩ := exec_zvzip hsh s
  refine ⟨fun hon hvill hvstart hcode => ?_, fun st hr hl houtside => ?_⟩
  · have hgate : ¬ GateCloses s := by
      rintro (hoff | hset | ⟨htraps, hne⟩)
      · exact Bool.noConfusion (hoff.symm.trans hon)
      · exact Bool.noConfusion (hvill.symm.trans hset)
      · exact hne (hvstart htraps)
    exact hexec.trans (vectorGate_of_setting_none hgate ((setting_eq_none_iff s).2 hcode) i _)
  · exact hexec.trans (execZvzip_outside plan hr ((hill st hr.isLmul8).2 hl)
      ((insideLaunchInvariants_eq_false_iff s st).2 houtside))

end Sys2Proof.Machine

/-! ## The state after reset -/

namespace Sys2Proof.Machine

/-- Reset leaves `vtype` with `vill` set and nothing else, and `vl = 0` (10_state.md R34). -/
theorem vtypeConsistent_reset : State.reset.VtypeConsistent := by
  have hvill : State.reset.vill = true := by decide
  exact ⟨fun _ => ⟨rfl, rfl⟩, fun h => Bool.noConfusion (hvill.symm.trans h)⟩

/-- Settles O39: the parameters are within their bounds, `vill` is set, and the program is empty. -/
theorem resetSatisfiesTheInvariants : Obligations.ResetSatisfiesTheInvariants where
  cfg := by decide
  vtype := vtypeConsistent_reset
  vstart := by decide
  x0 := rfl
  memWf := Memory.wf_reset
  memBound := List.forall_mem_nil _

end Sys2Proof.Machine
